-- ==== Sys2Proof/Word.lean ====
section
/-! DEFINITION. The 32-bit word and its signed, unsigned and wrap-around views (00_scope.md R7, R8). -/

namespace Sys2Proof

/-- A register or memory word (R8). -/
abbrev Word := BitVec 32

/-- `uint(v)`: the unsigned value, in `[0, 2^32)` (R8). -/
abbrev uint (v : Word) : Int := v.toNat

/-- `sint(v)`: the two's-complement value, in `[-2^31, 2^31)` (R8). -/
abbrev sint (v : Word) : Int := v.toInt

/-- `bv32(n)`: the word whose unsigned value is `n mod 2^32` (R8). -/
abbrev bv32 (n : Int) : Word := BitVec.ofInt 32 n

end Sys2Proof
end

