-- ==== Sys2Proof/Config.lean ====
section
/-! DEFINITION. The launch parameters (00_scope.md R6), the launch bounds (R6, 92_eei_decisions.md D7, D23) and the
free values: constants without a body, of which nothing can be proved but what holds of every value. -/

namespace Sys2Proof

/-- The parameters of R6 that are neither the program nor the data: fixed for a run, held in State because a step
reads nothing else (log entry 6). -/
structure Config where
  /-- `CHECK_UNTAKEN_BRANCH_TARGET`, default `false` (R6, 10_state.md R45, 92_eei_decisions.md D9). -/
  checkUntakenBranchTarget : Bool := false
  deriving DecidableEq, Repr

/-- What the host does with one syscall 5 request (10_state.md R33, 93_implementation_defined.md U7, U8). -/
inductive HostAnswer where
  /-- It answers with this signed 32-bit value. -/
  | value (v : Word)
  /-- It never answers: the step has no successor (70_reset_and_hazards.md R186). -/
  | never
  deriving DecidableEq, Repr

/-- FREE VALUE (log entry 5). The host's answer to the `n`-th syscall 5 of a run, for an answer that the state's `input`
does not fix: any signed 32-bit value, under no law (10_state.md R33). -/
opaque Config.hostInput (n : Nat) : Word

/-- FREE VALUE (log entry 8). One less than `EXIT_FAULT_STATUS` (R6, 10_state.md R35). -/
opaque Config.exitFaultStatusPred : Nat

/-- `EXIT_FAULT_STATUS`: any non-zero value (R6, R35, 92_eei_decisions.md D19). -/
def Config.exitFaultStatus : Nat := Config.exitFaultStatusPred + 1

/-- The greatest instruction count of a launch, `2^31 - 1` (R6, 92_eei_decisions.md D23). -/
def Config.maxInstructions : Nat := 2 ^ 31 - 1

/-- The greatest `N + M` of a launch, `2^31 - 2^15` (R6, 92_eei_decisions.md D7). -/
def Config.maxFootprint : Nat := 2 ^ 31 - 2 ^ 15

end Sys2Proof
end

