-- ==== Sys2Proof/Syntax.lean ====
section
/-! DEFINITION. The sixteen instructions with the operands each carries (30_encoding.md R90), the register index
and its names and roles (10_state.md R21). -/

namespace Sys2Proof

/-- A general register index: a 5-bit field, so an index outside the 32-entry table cannot be written (R88). -/
abbrev Reg := BitVec 5

/-- A raw 16-bit immediate field (R91). -/
abbrev Imm16 := BitVec 16

/-- A raw 26-bit jump target field (R92). -/
abbrev Target26 := BitVec 26

/-- `$zero` (R21). -/
def Reg.zero : Reg := 0
/-- `$v0`, the service code and the result of `syscall` (R21, 40_syscall.md R110). -/
def Reg.v0 : Reg := 2
/-- `$a0`, the argument of syscall 1 (R21, R110). -/
def Reg.a0 : Reg := 4
/-- `$gp`, reset to the instruction count (R21, R26). -/
def Reg.gp : Reg := 28

/-- The roles of the decoder's 32-entry register table (R21). Only an alias: no instruction gives a register
behaviour for its role. -/
inductive RegRole where
  | zeroRegister | assemblerTemp | returnValue | argument | temporary | saved | kernelReserved
  | globalPointer | stackPointer | framePointer | returnAddress
  deriving DecidableEq, Repr

/-- The role of a register index (R21: `0`, `1`, `2-3`, `4-7`, `8-15/24-25`, `16-23`, `26-27`, `28`, `29`, `30`, `31`). -/
def Reg.role (r : Reg) : RegRole :=
  if r.toNat = 0 then .zeroRegister else if r.toNat = 1 then .assemblerTemp
  else if r.toNat ≤ 3 then .returnValue else if r.toNat ≤ 7 then .argument
  else if r.toNat ≤ 15 then .temporary else if r.toNat ≤ 23 then .saved
  else if r.toNat ≤ 25 then .temporary else if r.toNat ≤ 27 then .kernelReserved
  else if r.toNat = 28 then .globalPointer else if r.toNat = 29 then .stackPointer
  else if r.toNat = 30 then .framePointer else .returnAddress

/-- The conventional names of the third column of R21's table, by index. -/
def regNames : List String :=
  ["$zero", "$at", "$v0", "$v1", "$a0", "$a1", "$a2", "$a3",
   "$t0", "$t1", "$t2", "$t3", "$t4", "$t5", "$t6", "$t7"] ++
  ["$s0", "$s1", "$s2", "$s3", "$s4", "$s5", "$s6", "$s7",
   "$t8", "$t9", "$k0", "$k1", "$gp", "$sp", "$fp", "$ra"]

/-- The typed instruction that decoding produces: one case per mnemonic, each with the operand roles it needs (R90). -/
inductive Instr where
  /-- Service code read from `x[2]` at execute (R110). -/
  | syscall
  /-- `rd <- HI` (R120). -/
  | mfhi (rd : Reg)
  /-- `rd <- LO` (R121). -/
  | mflo (rd : Reg)
  /-- `HI:LO <- rs * rt` (R122). -/
  | mult (rs rt : Reg)
  /-- `LO <- rs / rt`, `HI <- rs rem rt` (R123). -/
  | div (rs rt : Reg)
  /-- `rd <- rs + rt` (R130). -/
  | addu (rd rs rt : Reg)
  /-- `rd <- rs - rt` (R131). -/
  | subu (rd rs rt : Reg)
  /-- `rd <- rs AND rt` (R132). -/
  | and (rd rs rt : Reg)
  /-- `rd <- rs OR rt` (R133). -/
  | or (rd rs rt : Reg)
  /-- `rd <- rs < rt`, signed (R134). -/
  | slt (rd rs rt : Reg)
  /-- Jump to the absolute index `target` (R140). -/
  | j (target : Target26)
  /-- Branch by `imm` instructions when `rs = rt` (R141). -/
  | beq (rs rt : Reg) (imm : Imm16)
  /-- Branch by `imm` instructions when `rs ≠ rt` (R142). -/
  | bne (rs rt : Reg) (imm : Imm16)
  /-- `rt <- rs + imm` (R135). -/
  | addiu (rt rs : Reg) (imm : Imm16)
  /-- `rt <- DMEM[imm + rs - N]` (R150). -/
  | lw (rt rs : Reg) (imm : Imm16)
  /-- `DMEM[imm + rs - N] <- rt` (R151). -/
  | sw (rt rs : Reg) (imm : Imm16)
  deriving DecidableEq, Repr

/-- The decoder's `mnemonic` output: one of sixteen values (R95). -/
inductive Mnemonic where
  | syscall | mfhi | mflo | mult | div | addu | subu | and | or | slt | j | beq | bne | addiu | lw | sw
  deriving DecidableEq, Repr

/-- The mnemonic of an instruction (R90). -/
def Instr.mnemonic : Instr → Mnemonic
  | .syscall => .syscall
  | .mfhi _ => .mfhi
  | .mflo _ => .mflo
  | .mult _ _ => .mult
  | .div _ _ => .div
  | .addu _ _ _ => .addu
  | .subu _ _ _ => .subu
  | .and _ _ _ => .and
  | .or _ _ _ => .or
  | .slt _ _ _ => .slt
  | .j _ => .j
  | .beq _ _ _ => .beq
  | .bne _ _ _ => .bne
  | .addiu _ _ _ => .addiu
  | .lw _ _ _ => .lw
  | .sw _ _ _ => .sw

/-- Why a word is no instruction: the decoder rejects by name (R84, R86, R87). -/
inductive DecodeError where
  /-- The opcode is one of the 57 that no mnemonic uses (R86, R87, R96). -/
  | unsupportedOpcode (opcode : BitVec 6)
  /-- The opcode is 0 and the function code is one of the 54 that no mnemonic uses (R84, R96). -/
  | unsupportedFunction (funct : BitVec 6)
  deriving DecidableEq, Repr

end Sys2Proof
end

