-- ==== Sys2Proof/WellFormed.lean ====
section
/-! DEFINITION. What is well formed. Every term of `Instr` is: its fields have the widths of the encoding (30_encoding.md R81,
R88), so decoding and execution need no check of them. Checked here are the operands as a program text writes them
(R98's ranges) and the launch a supplier hands over (00_scope.md R6). -/

namespace Sys2Proof

/-- A register number of a program text, `0..31` (R88, R98). -/
def regIndexOk (n : Nat) : Bool := n < 32

/-- A signed decimal immediate of a program text, `-32768..32767` (R98). -/
def immediateOk (n : Int) : Bool := -32768 ≤ n && n ≤ 32767

/-- A jump index of a program text, `0..2^26-1` (R98). -/
def jumpIndexOk (n : Nat) : Bool := n < 2 ^ 26

/-- The register with a given number, if there is one. -/
def Reg.ofIndex? (n : Nat) : Option Reg := if regIndexOk n then some (BitVec.ofNat 5 n) else none

/-- The field that holds a signed decimal immediate, if it fits. -/
def Imm16.ofInt? (n : Int) : Option Imm16 := if immediateOk n then some (BitVec.ofInt 16 n) else none

/-- The field that holds an absolute jump index, if it fits. -/
def Target26.ofIndex? (n : Nat) : Option Target26 := if jumpIndexOk n then some (BitVec.ofNat 26 n) else none

/-- What a launch hands to the core: typed words, the parameters and the host's answers fixed beforehand (R6). -/
structure Launch where
  /-- `PROGRAM`: the `N` raw instruction words, in order. -/
  program : List Word
  /-- `DATA_INIT`: the `M` raw data words, in order. -/
  data : List Word
  /-- The parameters of the run. -/
  config : Config := {}
  /-- `INPUT`, as far as the run fixes it (log entry 5). -/
  input : List HostAnswer := []
  deriving DecidableEq, Repr

/-- What the input collaborator delivers: a launch, or a program text it could not read, which never reaches the core
(60_exceptions.md R165). -/
inductive Supplied where
  | launch (l : Launch)
  | malformedText (line : Nat)
  deriving DecidableEq, Repr

/-- The bounds on `N` and on `N + M` under which a launch is accepted (R6, 93_implementation_defined.md U11; log entry 9). -/
def launchSizesOk (n m : Nat) : Bool := n ≤ Config.maxInstructions && n + m ≤ Config.maxFootprint

/-- A launch is well formed when its sizes are. -/
def Launch.wellFormed (l : Launch) : Bool := launchSizesOk l.program.length l.data.length

end Sys2Proof
end

