-- ==== Sys2Proof/Decode.lean ====
section
/-! DEFINITION. The decoder, total on all words and rejecting by name; the whole-program decode of the loader; the decoder's
ports; and the encoder (30_encoding.md R80 to R97). -/

namespace Sys2Proof

/-- `opcode = w[31:26]` (R81). -/
def opcodeOf (w : Word) : BitVec 6 := w.extractLsb' 26 6
/-- `rs = w[25:21]` (R81). -/
def rsOf (w : Word) : Reg := w.extractLsb' 21 5
/-- `rt = w[20:16]` (R81). -/
def rtOf (w : Word) : Reg := w.extractLsb' 16 5
/-- `rd = w[15:11]` (R81). -/
def rdOf (w : Word) : Reg := w.extractLsb' 11 5
/-- `shamt = w[10:6]`, used by no mnemonic (R81, R89). -/
def shamtOf (w : Word) : BitVec 5 := w.extractLsb' 6 5
/-- `funct = w[5:0]` (R81). -/
def functOf (w : Word) : BitVec 6 := w.extractLsb' 0 6
/-- `imm = w[15:0]` (R81). -/
def immOf (w : Word) : Imm16 := w.extractLsb' 0 16
/-- `target = w[25:0]` (R81). -/
def targetOf (w : Word) : Target26 := w.extractLsb' 0 26

/-- Opcode 0: dispatch on the function code alone; `shamt` and the fields a mnemonic does not carry are ignored (R84, R89). -/
def decodeRegisterFormat (w : Word) : Except DecodeError Instr :=
  match functOf w with
  | 12 => .ok .syscall
  | 16 => .ok (.mfhi (rdOf w))
  | 18 => .ok (.mflo (rdOf w))
  | 24 => .ok (.mult (rsOf w) (rtOf w))
  | 26 => .ok (.div (rsOf w) (rtOf w))
  | 33 => .ok (.addu (rdOf w) (rsOf w) (rtOf w))
  | 35 => .ok (.subu (rdOf w) (rsOf w) (rtOf w))
  | 36 => .ok (.and (rdOf w) (rsOf w) (rtOf w))
  | 37 => .ok (.or (rdOf w) (rsOf w) (rtOf w))
  | 42 => .ok (.slt (rdOf w) (rsOf w) (rtOf w))
  | f => .error (.unsupportedFunction f)

/-- `decode`: a pure function, total on all words (R83 to R87, R93). -/
def decode (w : Word) : Except DecodeError Instr :=
  match opcodeOf w with
  | 0 => decodeRegisterFormat w
  | 2 => .ok (.j (targetOf w))
  | 4 => .ok (.beq (rsOf w) (rtOf w) (immOf w))
  | 5 => .ok (.bne (rsOf w) (rtOf w) (immOf w))
  | 9 => .ok (.addiu (rtOf w) (rsOf w) (immOf w))
  | 35 => .ok (.lw (rtOf w) (rsOf w) (immOf w))
  | 43 => .ok (.sw (rtOf w) (rsOf w) (immOf w))
  | op => .error (.unsupportedOpcode op)

/-- Decode every word in index order; on the first that is illegal, its 1-based position, counted from `position`, and the
reason (R94). -/
def decodeProgramFrom (position : Nat) : List Word → Except (Nat × DecodeError) (List Instr)
  | [] => .ok []
  | w :: rest =>
    match decode w with
    | .error e => .error (position, e)
    | .ok i =>
      match decodeProgramFrom (position + 1) rest with
      | .error e => .error e
      | .ok is => .ok (i :: is)

/-- The whole-program decode (R94). -/
def decodeProgram (program : List Word) : Except (Nat × DecodeError) (List Instr) := decodeProgramFrom 1 program

/-- The decoder's outputs (R95). A field the mnemonic does not carry is a don't-care, written `none`; so is every port but
`valid` for an illegal word (DESIGN CHOICE, log entry 15). -/
structure DecoderPorts where
  valid : Bool
  mnemonic : Option Mnemonic := none
  rs : Option Reg := none
  rt : Option Reg := none
  rd : Option Reg := none
  imm : Option Imm16 := none
  target : Option Target26 := none
  deriving DecidableEq, Repr

/-- The ports that carry an instruction (R90, R95). -/
def Instr.ports (i : Instr) : DecoderPorts :=
  match i with
  | .syscall => { valid := true, mnemonic := some i.mnemonic }
  | .mfhi rd | .mflo rd => { valid := true, mnemonic := some i.mnemonic, rd := some rd }
  | .mult rs rt | .div rs rt => { valid := true, mnemonic := some i.mnemonic, rs := some rs, rt := some rt }
  | .addu rd rs rt | .subu rd rs rt | .and rd rs rt | .or rd rs rt | .slt rd rs rt =>
    { valid := true, mnemonic := some i.mnemonic, rs := some rs, rt := some rt, rd := some rd }
  | .j target => { valid := true, mnemonic := some i.mnemonic, target := some target }
  | .beq rs rt imm | .bne rs rt imm | .addiu rt rs imm | .lw rt rs imm | .sw rt rs imm =>
    { valid := true, mnemonic := some i.mnemonic, rs := some rs, rt := some rt, imm := some imm }

/-- The decoder block: combinational, `valid = 0` exactly on a `DecodeError` (R95). DESIGN CHOICE (log entry 15): R95 does not say
what the other ports carry when `valid = 0`, the mnemonic port among them; here each is `none`. -/
def decoderPorts (w : Word) : DecoderPorts :=
  match decode w with
  | .ok i => i.ports
  | .error _ => { valid := false }

/-! ## The encoder -/

/-- The R-format: `000000 rs rt rd shamt funct`, most significant bit first (R82). -/
def encodeRegisterFormat (rs rt rd shamt : BitVec 5) (funct : BitVec 6) : Word :=
  (0#6 ++ rs ++ rt ++ rd ++ shamt ++ funct).cast rfl

/-- The I-format: `opcode rs rt imm` (R82). -/
def encodeImmediateFormat (opcode : BitVec 6) (rs rt : Reg) (imm : Imm16) : Word :=
  (opcode ++ rs ++ rt ++ imm).cast rfl

/-- The J-format: `000010 target` (R82). -/
def encodeJumpFormat (target : Target26) : Word := (2#6 ++ target).cast rfl

/-- The canonical word of an instruction: its row of R84, R85 or R87, with the ignored fields zero (R89). -/
def encode : Instr → Word
  | .syscall => encodeRegisterFormat 0 0 0 0 12
  | .mfhi rd => encodeRegisterFormat 0 0 rd 0 16
  | .mflo rd => encodeRegisterFormat 0 0 rd 0 18
  | .mult rs rt => encodeRegisterFormat rs rt 0 0 24
  | .div rs rt => encodeRegisterFormat rs rt 0 0 26
  | .addu rd rs rt => encodeRegisterFormat rs rt rd 0 33
  | .subu rd rs rt => encodeRegisterFormat rs rt rd 0 35
  | .and rd rs rt => encodeRegisterFormat rs rt rd 0 36
  | .or rd rs rt => encodeRegisterFormat rs rt rd 0 37
  | .slt rd rs rt => encodeRegisterFormat rs rt rd 0 42
  | .j target => encodeJumpFormat target
  | .beq rs rt imm => encodeImmediateFormat 4 rs rt imm
  | .bne rs rt imm => encodeImmediateFormat 5 rs rt imm
  | .addiu rt rs imm => encodeImmediateFormat 9 rs rt imm
  | .lw rt rs imm => encodeImmediateFormat 35 rs rt imm
  | .sw rt rs imm => encodeImmediateFormat 43 rs rt imm

/-- The bits of a word that its instruction takes no notice of: `shamt` in the R-format, and each register field the
mnemonic does not carry (R89). -/
def ignoredBits : Instr → Word
  | .syscall => 0x03FFFFC0
  | .mfhi _ | .mflo _ => 0x03FF07C0
  | .mult _ _ | .div _ _ => 0x0000FFC0
  | .addu _ _ _ | .subu _ _ _ | .and _ _ _ | .or _ _ _ | .slt _ _ _ => 0x000007C0
  | .j _ | .beq _ _ _ | .bne _ _ _ | .addiu _ _ _ | .lw _ _ _ | .sw _ _ _ => 0

/-- The instruction the decoder reads from a word numbered as the opcode table numbers its bits: `nbits` bits are given, the
bits above them are zero, and an instruction is one 32-bit word (R80). -/
def decodeTableWord (nbits w : Nat) : Option Instr :=
  match decode (BitVec.ofNat 32 (w % 2 ^ nbits)) with
  | .ok i => some i
  | .error _ => none

end Sys2Proof
end

