-- ==== Sys2Proof/Machine/State.lean ====
section
/-! DEFINITION. The machine's state as plain data (10_state.md, the aggregate `Machine`), the reasons it can stop, and the
state after reset. -/

namespace Sys2Proof.Machine

/-- The closed enumeration of fault reasons (60_exceptions.md R160). A fault of the spec is a transition to `Mode.faulted`,
which the model takes as a next state; it is not a `Machine.Fault` (log entry 1). -/
inductive FaultReason where
  /-- The loader: a word matches no supported opcode or function code (30_encoding.md R94, R96). -/
  | decodeError
  /-- `syscall`: the code is not 1, 5 or 10 (40_syscall.md R114). -/
  | invalidSyscall
  /-- `div`: divisor or dividend is zero (41_muldiv.md R124). -/
  | divideByZero
  /-- `div`: dividend `-2^31` and divisor `-1` (R125). -/
  | divideOverflow
  /-- `j`: target not below `N` (43_control.md R140). -/
  | invalidJumpTarget
  /-- `beq`, `bne`: resolved target outside `[0, N)` (R141, R142). -/
  | invalidBranchTarget
  /-- `lw`, `sw`: effective index outside `[0, M)` (20_memory.md R62). -/
  | invalidDataAddress
  /-- A destination register index is 0 (10_state.md R23). -/
  | zeroRegisterWrite
  /-- The input collaborator, outside the core: the core never enters it (R165). -/
  | malformedInput
  deriving DecidableEq, Repr

/-- The engine state (10_state.md R28). The program counter exists only inside `running` (R27); it counts instructions. -/
inductive Mode where
  /-- `IMEM[pc]` is executed next. -/
  | running (pc : Nat)
  /-- A normal end; it records no cause (92_eei_decisions.md D22). -/
  | halted
  /-- An error end: the reason, and the failing pc, or for `decodeError` the 1-based position of the word (R161). -/
  | faulted (reason : FaultReason) (location : Nat)
  deriving DecidableEq, Repr

/-- Data memory: `size` words (`M`), and the words that are not zero, by data index, in rising order of the index. The one
canonical form is `Memory.wf` (20_memory.md R60, R63; log entry 4). -/
structure Memory where
  size : Nat
  cells : List (Nat × Word)
  deriving DecidableEq, Repr

/-- Everything the spec gives the machine (10_state.md, `Machine`), the launch parameters a step reads, and the model's own
two fields for the host's answers. -/
structure State where
  /-- CHECK_UNTAKEN_BRANCH_TARGET (00_scope.md R6; log entry 6). No step writes it. -/
  config : Config
  /-- The general registers `x[0]` to `x[31]` (10_state.md R20). -/
  x : Vector Word 32
  /-- The accumulator `HI` (R20). -/
  hi : Word
  /-- The accumulator `LO` (R20). -/
  lo : Word
  /-- The engine state, with the program counter (R27, R28). -/
  mode : Mode
  /-- The committed steps (R30). -/
  steps : Nat
  /-- The decoded program; its length is `N` (R31). -/
  imem : List Instr
  /-- Data memory; its size is `M` (R32). -/
  dmem : Memory
  /-- The emitted values, oldest first (R33). -/
  out : List Int
  /-- The MODEL's own: the host's answers fixed beforehand, oldest first (log entry 5). -/
  input : List HostAnswer
  /-- The MODEL's own: how many answers have been taken (log entry 5). -/
  drawn : Nat
  deriving DecidableEq, Repr

/-- `N`, the instruction count and the step limit (00_scope.md R6, 10_state.md R30). -/
abbrev State.instructionCount (s : State) : Nat := s.imem.length

/-- `M`, the data-word count (R6). -/
abbrev State.dataCount (s : State) : Nat := s.dmem.size

/-- Why the machine has no step: the spec enables none, or the state is one no run reaches. -/
inductive Fault where
  /-- Raised by every step of a halted machine: `Halted` is terminal (10_state.md R29). Safe: the model stops where the spec
  enables no step. -/
  | haltedIsTerminal
  /-- Raised by every step of a faulted machine: `Faulted` is terminal (R29). Safe: as above. -/
  | faultedIsTerminal
  /-- Raised by syscall 5 when the host never answers: the step is stuck (70_reset_and_hazards.md R186,
  93_implementation_defined.md U8). Safe: the spec gives that step no successor. -/
  | hostNeverAnswers
  /-- Raised by the fetch when the pc is not below `N`, which R28 excludes of every state a run reaches. Safe: nothing can be
  proved of such a step. -/
  | fetchOutsideProgram
  deriving DecidableEq, Repr

/-- Why the model gives no meaning. -/
inductive Refusal where
  /-- Raised by `exec` for an instruction without a meaning yet. Safe. No arm of this model raises it. -/
  | notModelled (mnemonic : String)
  /-- Raised by the loader: `N` or `N + M` is above the spec's bound, and the launch is refused (93_implementation_defined.md
  U11). Safe: nothing can be proved of such a launch. -/
  | launchTooLarge
  /-- Raised by the loader's caller: the program text was malformed and never reached the core (60_exceptions.md R165, U16).
  Safe: nothing is stated of such a launch. -/
  | malformedText (line : Nat)
  deriving DecidableEq, Repr

/-- The three outcomes of a step of this machine. -/
abbrev StepResult := Host.Outcome State Fault Refusal

/-- The machine right after reset with nothing loaded: the load of the empty program, so `N = 0`, `M = 0`, `$gp = bv32(0)` and
the engine is `Halted` (70_reset_and_hazards.md R181, R182; log entry 3). -/
def State.reset : State where
  config := {}
  x := Vector.replicate 32 0
  hi := 0
  lo := 0
  mode := .halted
  steps := 0
  imem := []
  dmem := { size := 0, cells := [] }
  out := []
  input := []
  drawn := 0

end Sys2Proof.Machine
end

