-- ==== Sys2Proof/Machine/Operands.lean ====
section
/-! DEFINITION. The operand forms: how a raw field is read (30_encoding.md R91, R92), truncating division (00_scope.md R9), and
the one memory addressing form and the one branch target form (20_memory.md R61, 10_state.md R44). All arithmetic here is
exact. -/

namespace Sys2Proof.Machine

/-- `sext_16(f)`: the field read as a two's-complement integer, in `[-2^15, 2^15)` (00_scope.md R8). -/
def sext16 (f : Imm16) : Int := f.toInt

/-- `zext_26(f)`: the field read as an unsigned integer, in `[0, 2^26)` (R8, R92). -/
def zext26 (f : Target26) : Int := f.toNat

/-- `tdiv(a, b)`: the quotient truncated toward zero (00_scope.md R9). -/
def tdiv (a b : Int) : Int := (a * b).sign * ((a.natAbs / b.natAbs : Nat) : Int)

/-- `trem(a, b)`: what `tdiv` leaves; its sign is that of `a`, or it is zero (R9). -/
def trem (a b : Int) : Int := a - b * tdiv a b

/-- The effective index for a base value and an offset field, relative to the data-segment base `n`: exact, not scaled
(20_memory.md R61, which takes 92_eei_decisions.md D4 and D7). -/
def effectiveIndexOf (imm : Imm16) (base : Word) (n : Nat) : Int := sext16 imm + sint base - n

/-- The target of a branch at index `pc`: relative to its own index, in instructions, exact (10_state.md R44). -/
def branchTarget (pc : Nat) (imm : Imm16) : Int := pc + sext16 imm

/-- The range check on an index into an array of `n` things: `0 ≤ i < n` (20_memory.md R62, 10_state.md R43, R44). -/
def inRange (i : Int) (n : Nat) : Bool := decide (0 ≤ i) && decide (i < n)

end Sys2Proof.Machine
end

