-- ==== Sys2Proof/Machine/Flags.lean ====
section
/-! DEFINITION. The core has no flags, condition codes or predicates (10_state.md R36), so no flag is computed anywhere. What
stands here is what compares: `slt` puts its result in a general register, and the branches compare registers directly. -/

namespace Sys2Proof.Machine

/-- The result of `slt`: 1 when the signed value of `a` is below that of `b`, else 0 (42_alu.md R134). -/
def setLessThan (a b : Word) : Word := if sint a < sint b then bv32 1 else bv32 0

/-- The condition of `beq`: the 32-bit words are equal (43_control.md R141). -/
def equalWords (a b : Word) : Bool := a = b

end Sys2Proof.Machine
end

