-- ==== Sys2Proof/Machine/Ops.lean ====
section
/-! DEFINITION. The named operations over registers, data memory, the host's streams and the engine state; the program counter
controller; and the commit of a step, with fault entry as the one way to take a fault. -/

namespace Sys2Proof.Machine

/-! ## Data memory (20_memory.md R60 to R63) -/

/-- The word a data index reads as when no cell lists it. It is a matter of form alone: every index in `[0, M)` holds what the
launch gave it (R73), and a zero word is the one not listed (log entry 4). -/
def Memory.unlisted : Word := 0

/-- The word that a list of cells gives for an index. -/
def cellsRead : List (Nat × Word) → Nat → Word
  | [], _ => Memory.unlisted
  | (a, v) :: rest, k => if a = k then v else cellsRead rest k

/-- The cells with index `k` set to `v`, in canonical form: in order, and nothing listed that reads the same unlisted. -/
def cellsWrite : List (Nat × Word) → Nat → Word → List (Nat × Word)
  | [], k, v => if v = Memory.unlisted then [] else [(k, v)]
  | (a, u) :: rest, k, v =>
    if a < k then (a, u) :: cellsWrite rest k v
    else if a = k then (if v = Memory.unlisted then rest else (k, v) :: rest)
    else (if v = Memory.unlisted then (a, u) :: rest else (k, v) :: (a, u) :: rest)

/-- The cells of an array of words that begins at index `k`. -/
def cellsOfWords (k : Nat) : List Word → List (Nat × Word)
  | [] => []
  | v :: rest => if v = Memory.unlisted then cellsOfWords (k + 1) rest else (k, v) :: cellsOfWords (k + 1) rest

/-- Indices rise strictly from `low` up and stay below `size`, and no cell holds what an unlisted index reads as. -/
def cellsWf (low size : Nat) : List (Nat × Word) → Bool
  | [] => true
  | (a, v) :: rest => decide (low ≤ a) && decide (a < size) && decide (v ≠ Memory.unlisted) && cellsWf (a + 1) size rest

/-- The canonical form of data memory: equal memories are equal data (log entry 4). -/
def Memory.wf (m : Memory) : Bool := cellsWf 0 m.size m.cells

/-- `MemRead(k, 1)`: the word `DMEM[k]`; used only for `k` in range (R63). -/
def Memory.read (m : Memory) (k : Nat) : Word := cellsRead m.cells k

/-- `MemWrite(k, 1, v)`: `DMEM[k]` becomes `v`; used only for `k` in range (R63). -/
def Memory.write (m : Memory) (k : Nat) (v : Word) : Memory := { m with cells := cellsWrite m.cells k v }

/-- The data memory whose words are given in order: `DMEM[k] = data[k]` (R73). -/
def Memory.ofWords (data : List Word) : Memory := { size := data.length, cells := cellsOfWords 0 data }

/-- All `M` words, in order of their index. -/
def Memory.words (m : Memory) : List Word := (List.range m.size).map m.read

/-! ## Single updates of the state -/

/-- General register `r` replaced, whichever it is: the storage behind the write port. -/
def State.setX (s : State) (r : Reg) (v : Word) : State := { s with x := s.x.set r.toNat v r.isLt }

/-- `HI` and `LO` written together (10_state.md R25). -/
def State.setHiLo (s : State) (hi lo : Word) : State := { s with hi := hi, lo := lo }

/-- The engine state replaced. -/
def State.setMode (s : State) (mode : Mode) : State := { s with mode := mode }

/-- One more committed step (R30). -/
def State.countStep (s : State) : State := { s with steps := s.steps + 1 }

/-- Data memory replaced. -/
def State.setDmem (s : State) (m : Memory) : State := { s with dmem := m }

/-- `emit(v)`: append to the output stream (R33). -/
def State.emit (s : State) (v : Int) : State := { s with out := s.out ++ [v] }

/-- One answer of the host taken. -/
def State.takeInput (s : State) : State := { s with input := s.input.tail, drawn := s.drawn + 1 }

/-! ## The register file (10_state.md R20 to R25) -/

/-- `x[r]`: register 0 always reads 0, whatever happened before (R22). -/
def State.readReg (s : State) (r : Reg) : Word := if r = 0 then 0 else s.x[r.toNat]'r.isLt

/-- `x[r] <- v`: the write port, where register 0 raises `ZeroRegisterWrite` instead (R23). -/
def State.writeReg (s : State) (r : Reg) (v : Word) : Except FaultReason State :=
  if r = 0 then .error .zeroRegisterWrite else .ok (s.setX r v)

/-! ## Loads and stores (20_memory.md R61 to R63) -/

/-- The effective index of a load or store: `sext_16(imm) + sint(x[rs]) - N` (R61). -/
def State.effectiveIndex (s : State) (rs : Reg) (imm : Imm16) : Int :=
  effectiveIndexOf imm (s.readReg rs) s.instructionCount

/-- A read of one data word, after the range check (R62, R63). -/
def State.loadWord (s : State) (ei : Int) : Except FaultReason Word :=
  if inRange ei s.dataCount then .ok (s.dmem.read ei.toNat) else .error .invalidDataAddress

/-- A write of one data word, after the range check (R62, R63). -/
def State.storeWord (s : State) (ei : Int) (v : Word) : Except FaultReason State :=
  if inRange ei s.dataCount then .ok (s.setDmem (s.dmem.write ei.toNat v)) else .error .invalidDataAddress

/-! ## The host's input (10_state.md R33) -/

/-- `input()`: the next draw and the state with it taken, or `none` when the host never answers. An answer the run does not
fix is the free value `Config.hostInput` (log entry 5). -/
def State.drawInput (s : State) : Option (Word × State) :=
  match s.input with
  | .value v :: _ => some (v, s.takeInput)
  | .never :: _ => none
  | [] => some (Config.hostInput s.drawn, s.takeInput)

/-! ## The program counter controller (10_state.md R40 to R45) -/

/-- The control choice of an instruction: the controller's `kind` and `target` inputs (R38, R40). -/
inductive Ctl where
  | seq
  | jump (target : Int)
  | branchTaken (target : Int)
  | branchUntaken (target : Int)
  | halt
  deriving DecidableEq, Repr

/-- The controller's outputs (R40). -/
inductive PcOutcome where
  | next (pc : Nat)
  | halt
  | fault (reason : FaultReason)
  deriving DecidableEq, Repr

/-- Sequential advance, and the fall-off at the last index, which halts (R41, R42). -/
def pcSequential (n pc : Nat) : PcOutcome := if pc + 1 = n then .halt else .next (pc + 1)

/-- The program counter controller: from the pc, the control choice and `N`, the next pc, a halt or a target fault; with
`checkUntaken` a not-taken branch has its target checked too (R41 to R45). -/
def pcController (checkUntaken : Bool) (n pc : Nat) (ctl : Ctl) : PcOutcome :=
  match ctl with
  | .seq => pcSequential n pc
  | .jump t => if inRange t n then .next t.toNat else .fault .invalidJumpTarget
  | .branchTaken t => if inRange t n then .next t.toNat else .fault .invalidBranchTarget
  | .branchUntaken t => if !inRange t n && checkUntaken then .fault .invalidBranchTarget else pcSequential n pc
  | .halt => .halt

/-! ## Fault entry and the commit of a step (10_state.md R38, R39, 60_exceptions.md R161) -/

/-- FAULT ENTRY, the one way a fault is taken: the machine enters `Faulted(reason, location)` and nothing else changes. It is
terminal; there is no handler and no return (60_exceptions.md R161, R163). -/
def State.enterFaulted (s : State) (reason : FaultReason) (location : Nat) : State :=
  s.setMode (.faulted reason location)

/-- The engine state after a committed step that would go on at `next`: the step bound cuts it off (R46). -/
def modeAfter (n steps next : Nat) : Mode := if steps = n then .halted else .running next

/-- The end of a step at `pc` from `s`: a fault commits nothing; otherwise the state with the instruction's writes is
committed, the step is counted, and the engine goes where the controller says, within the step bound (R38, R39, R46). -/
def State.complete (s : State) (pc : Nat) (effects : Except FaultReason State) (ctl : Ctl) : StepResult :=
  match effects with
  | .error reason => .next (s.enterFaulted reason pc)
  | .ok s' =>
    match pcController s.config.checkUntakenBranchTarget s.instructionCount pc ctl with
    | .fault reason => .next (s.enterFaulted reason pc)
    | .halt => .next (s'.countStep.setMode .halted)
    | .next next => .next (s'.countStep.setMode (modeAfter s.instructionCount (s.steps + 1) next))

/-- Only a running machine takes a step: `Halted` and `Faulted` are terminal (R29). -/
def State.whenRunning (s : State) (step : Nat → StepResult) : StepResult :=
  match s.mode with
  | .running pc => step pc
  | .halted => .fault .haltedIsTerminal
  | .faulted _ _ => .fault .faultedIsTerminal

/-- `IMEM[pc]`: the fetch (R31). -/
def State.fetch (s : State) (pc : Nat) : Option Instr := s.imem[pc]?

/-! ## Views for the collaborators (10_state.md R34, R35) -/

/-- The exit status of an ended run: 0 from `Halted`, `EXIT_FAULT_STATUS` from `Faulted` (R35). -/
def Mode.exitStatus : Mode → Option Nat
  | .running _ => none
  | .halted => some 0
  | .faulted _ _ => some Config.exitFaultStatus

/-- The read-only view of all 34 locations (R25, R34). -/
structure RegSnapshot where
  x : List Word
  hi : Word
  lo : Word
  deriving DecidableEq, Repr

/-- The register-file snapshot: each general register as the read port gives it, in index order, and the accumulators. -/
def State.snapshot (s : State) : RegSnapshot :=
  { x := (List.range 32).map fun k => s.readReg (BitVec.ofNat 5 k), hi := s.hi, lo := s.lo }

/-- The register file's inputs in one step (R25). -/
structure RegFileInputs where
  raIdx : Reg := 0
  rbIdx : Reg := 0
  wEn : Bool := false
  wIdx : Reg := 0
  wData : Word := 0
  accWe : Bool := false
  hiIn : Word := 0
  loIn : Word := 0
  deriving DecidableEq, Repr

/-- The register file's outputs in one step (R25). -/
structure RegFileOutputs where
  raData : Word
  rbData : Word
  hiOut : Word
  loOut : Word
  v0Out : Word
  a0Out : Word
  snapshot : RegSnapshot
  deriving DecidableEq, Repr

/-- The read side: combinational on the state before the step (R25). -/
def State.regFileRead (s : State) (inputs : RegFileInputs) : RegFileOutputs :=
  { raData := s.readReg inputs.raIdx, rbData := s.readReg inputs.rbIdx, hiOut := s.hi, loOut := s.lo,
    v0Out := s.readReg Reg.v0, a0Out := s.readReg Reg.a0, snapshot := s.snapshot }

/-- The write side, at commit: at most one general register, and the accumulators together (R23, R25). -/
def State.regFileCommit (s : State) (inputs : RegFileInputs) : Except FaultReason State :=
  let s' := if inputs.accWe then s.setHiLo inputs.hiIn inputs.loIn else s
  if inputs.wEn then s'.writeReg inputs.wIdx inputs.wData else .ok s'

end Sys2Proof.Machine
end

