-- ==== Sys2Proof/Machine/Alu.lean ====
section
/-! DEFINITION. Integer arithmetic, logic and compare (42_alu.md R130 to R135). The operands are read first, then the result goes
to the write port, which faults on register 0. -/

namespace Sys2Proof.Machine

/-- An instruction of one result: `x[rd] <- v`, then on to the next index. -/
def State.writeResult (s : State) (rd : Reg) (v : Word) : StepResult :=
  s.whenRunning fun pc => s.complete pc (s.writeReg rd v) .seq

/-- `addu rd, rs, rt`: wrap-around, no overflow fault (R130). -/
def execAddu (rd rs rt : Reg) (s : State) : StepResult :=
  s.writeResult rd (bv32 (uint (s.readReg rs) + uint (s.readReg rt)))

/-- `subu rd, rs, rt`: wrap-around (R131). -/
def execSubu (rd rs rt : Reg) (s : State) : StepResult :=
  s.writeResult rd (bv32 (uint (s.readReg rs) - uint (s.readReg rt)))

/-- `and rd, rs, rt`: bitwise (R132). -/
def execAnd (rd rs rt : Reg) (s : State) : StepResult :=
  s.writeResult rd (s.readReg rs &&& s.readReg rt)

/-- `or rd, rs, rt`: bitwise (R133). -/
def execOr (rd rs rt : Reg) (s : State) : StepResult :=
  s.writeResult rd (s.readReg rs ||| s.readReg rt)

/-- `slt rd, rs, rt`: signed compare (R134). -/
def execSlt (rd rs rt : Reg) (s : State) : StepResult :=
  s.writeResult rd (setLessThan (s.readReg rs) (s.readReg rt))

/-- `addiu rt, rs, imm`: the immediate is sign-extended; wrap-around, no overflow fault (R135). -/
def execAddiu (rt rs : Reg) (imm : Imm16) (s : State) : StepResult :=
  s.writeResult rt (bv32 (sint (s.readReg rs) + sext16 imm))

end Sys2Proof.Machine
end

