-- ==== Sys2Proof/Machine/Control.lean ====
section
/-! DEFINITION. Control transfer (43_control.md R140 to R143). There is no delay slot and no link register. -/

namespace Sys2Proof.Machine

/-- `j target`: the target is an absolute instruction index (R140). -/
def execJ (target : Target26) (s : State) : StepResult :=
  s.whenRunning fun pc => s.complete pc (.ok s) (.jump (zext26 target))

/-- A branch on a condition, relative to its own index (10_state.md R44, R45). -/
def State.branch (s : State) (taken : Bool) (imm : Imm16) : StepResult :=
  s.whenRunning fun pc =>
    s.complete pc (.ok s) (if taken then .branchTaken (branchTarget pc imm) else .branchUntaken (branchTarget pc imm))

/-- `beq rs, rt, imm` (R141). -/
def execBeq (rs rt : Reg) (imm : Imm16) (s : State) : StepResult :=
  s.branch (equalWords (s.readReg rs) (s.readReg rt)) imm

/-- `bne rs, rt, imm` (R142). -/
def execBne (rs rt : Reg) (imm : Imm16) (s : State) : StepResult :=
  s.branch (!equalWords (s.readReg rs) (s.readReg rt)) imm

end Sys2Proof.Machine
end

