-- ==== Sys2Proof/Machine/LoadStore.lean ====
section
/-! DEFINITION. Loads and stores (44_loadstore.md R150, R151). The address fault comes before `ZeroRegisterWrite`
(60_exceptions.md R166). -/

namespace Sys2Proof.Machine

/-- `lw rt, imm(rs)` (R150). -/
def execLw (rt rs : Reg) (imm : Imm16) (s : State) : StepResult :=
  s.whenRunning fun pc =>
    s.complete pc ((s.loadWord (s.effectiveIndex rs imm)).bind fun v => s.writeReg rt v) .seq

/-- `sw rt, imm(rs)`: register 0 is a legal source and stores 0 (R151). -/
def execSw (rt rs : Reg) (imm : Imm16) (s : State) : StepResult :=
  s.whenRunning fun pc => s.complete pc (s.storeWord (s.effectiveIndex rs imm) (s.readReg rt)) .seq

end Sys2Proof.Machine
end

