-- ==== Sys2Proof/Machine/MulDiv.lean ====
section
/-! DEFINITION. Multiply, divide and the accumulator moves (41_muldiv.md R120 to R125). -/

namespace Sys2Proof.Machine

/-- `mfhi rd` (R120). -/
def execMfhi (rd : Reg) (s : State) : StepResult :=
  s.whenRunning fun pc => s.complete pc (s.writeReg rd s.hi) .seq

/-- `mflo rd` (R121). -/
def execMflo (rd : Reg) (s : State) : StepResult :=
  s.whenRunning fun pc => s.complete pc (s.writeReg rd s.lo) .seq

/-- The 64-bit two's complement of the exact signed product (R122). -/
def product64 (a b : Word) : BitVec 64 := BitVec.ofInt 64 (sint a * sint b)

/-- `mult rs, rt`: `LO <- P[31:0]`, `HI <- P[63:32]`; it writes no general register (R122). -/
def execMult (rs rt : Reg) (s : State) : StepResult :=
  s.whenRunning fun pc =>
    let p := product64 (s.readReg rs) (s.readReg rt)
    s.complete pc (.ok (s.setHiLo (p.extractLsb' 32 32) (p.extractLsb' 0 32))) .seq

/-- The quotient and the remainder of a signed division, or its fault: a zero divisor or a zero dividend (R124), or the
quotient `2^31` (R125, which takes 92_eei_decisions.md D8). -/
def divide (a b : Int) : Except FaultReason (Word × Word) :=
  if b = 0 ∨ a = 0 then .error .divideByZero
  else if a = -2 ^ 31 ∧ b = -1 then .error .divideOverflow
  else .ok (bv32 (tdiv a b), bv32 (trem a b))

/-- `div rs, rt`: `LO <- quotient`, `HI <- remainder` (R123). -/
def execDiv (rs rt : Reg) (s : State) : StepResult :=
  s.whenRunning fun pc =>
    s.complete pc ((divide (sint (s.readReg rs)) (sint (s.readReg rt))).map fun (q, r) => s.setHiLo r q) .seq

end Sys2Proof.Machine
end

