-- ==== Sys2Proof/Machine/Syscall.lean ====
section
/-! DEFINITION. The environment call (40_syscall.md R110 to R114). -/

namespace Sys2Proof.Machine

/-- `syscall`: the service code is the signed value of `$v0`, compared whole; 1 emits `$a0`, 5 reads a host answer into `$v0`,
10 halts, and any other code faults (R110 to R114). -/
def execSyscall (s : State) : StepResult :=
  s.whenRunning fun pc =>
    let code := sint (s.readReg Reg.v0)
    if code = 1 then s.complete pc (.ok (s.emit (sint (s.readReg Reg.a0)))) .seq
    else if code = 5 then
      match s.drawInput with
      | some (v, s') => s.complete pc (s'.writeReg Reg.v0 v) .seq
      | none => .fault .hostNeverAnswers
    else if code = 10 then s.complete pc (.ok s) .halt
    else s.complete pc (.error .invalidSyscall) .seq

end Sys2Proof.Machine
end

