-- ==== Sys2Proof/Machine/Load.lean ====
section
/-! DEFINITION. Program load, which is the core's reset (70_reset_and_hazards.md R180 to R182), and the placing of one
instruction where the engine fetches next. -/

namespace Sys2Proof.Machine

/-- The reset state for a decoded program, a data memory and the parameters: `$gp = bv32(N)`, all else zero or empty, and the
engine `Running(0)`, or `Halted` when there is no instruction (R181, R182). -/
def loadedState (config : Config) (imem : List Instr) (dmem : Memory) (input : List HostAnswer) : State :=
  { State.reset.setX Reg.gp (bv32 imem.length) with
    config := config
    imem := imem
    dmem := dmem
    input := input
    mode := if imem.length = 0 then .halted else .running 0 }

/-- The state of a launch whose word at 1-based position `k` is illegal: `Faulted(DecodeError, k)`; nothing else of it is ever
observable (R180; log entry 12). -/
def decodeFaultState (l : Launch) (k : Nat) : State :=
  ({ State.reset with config := l.config, input := l.input } : State).enterFaulted .decodeError k

/-- Program load: a launch above the bounds is refused (93_implementation_defined.md U11); the whole program is decoded before
anything else, and the first illegal word ends the run (30_encoding.md R94); then the reset state is established (R180). -/
def load (l : Launch) : StepResult :=
  if l.wellFormed then
    match decodeProgram l.program with
    | .error (k, _) => .next (decodeFaultState l k)
    | .ok imem => .next (loadedState l.config imem (Memory.ofWords l.data) l.input)
  else .refused .launchTooLarge

/-- What the supplier delivers, loaded: malformed text never reaches the core (60_exceptions.md R165; log entry
13). -/
def loadSupplied : Supplied → StepResult
  | .launch l => load l
  | .malformedText line => .refused (.malformedText line)

/-- The state with one instruction as its whole program, about to run: what loading that program sets (R181), over the data
memory and the streams that are there. -/
def State.loadOne (s : State) (i : Instr) : State :=
  { s.setX Reg.gp (bv32 1) with imem := [i], steps := 0, mode := .running 0 }

/-- The state with `i` as the instruction the next step fetches: in a running machine in place of `IMEM[pc]`, elsewhere as a
program of one instruction (log entry 3). -/
def State.placeInstr (s : State) (i : Instr) : State :=
  match s.mode with
  | .running pc => if pc < s.instructionCount then { s with imem := s.imem.set pc i } else s.loadOne i
  | _ => s.loadOne i

/-- The state after an illegal word was to be placed there: the load of it faults (R94). -/
def State.rejectWord (s : State) : State :=
  match s.mode with
  | .running pc => s.enterFaulted .decodeError (pc + 1)
  | _ => s.enterFaulted .decodeError 1

end Sys2Proof.Machine
end

