-- ==== Sys2Proof/Machine/Step.lean ====
section
/-! DEFINITION. The step of the engine (10_state.md R38) and the host's way to place a word where it fetches. -/

namespace Sys2Proof.Machine

/-- One step: from `Running(pc)` fetch `IMEM[pc]` and execute it, commit and retarget (R38). No step is enabled in `Halted` or
`Faulted` (R29). -/
def step (s : State) : Host.Outcome State Fault Refusal :=
  s.whenRunning fun pc =>
    match s.fetch pc with
    | some i => exec i s
    | none => .fault .fetchOutsideProgram

/-- The state with the instruction of a table word placed where `step` fetches next; it stands for the load of a program that
holds that word (log entry 3). -/
def State.withFetchWord (s : State) (nbits w : Nat) : State :=
  match decodeTableWord nbits w with
  | some i => s.placeInstr i
  | none => s.rejectWord

end Sys2Proof.Machine
end

