-- ==== Sys2Proof/Machine/Observe.lean ====
section
/-! DEFINITION. What the outside sees: the trace records (10_state.md R34, 60_exceptions.md R171) and the observation of an
ended run (R47). Nothing here is read by a step, and no trace can change the state. -/

namespace Sys2Proof.Machine

/-- What the trace sink receives (R34). Its text is the sink's business. -/
inductive TraceRecord where
  /-- At load: the full decoded instruction listing and the initial data dump. -/
  | loaded (listing : List Instr) (data : List Word)
  /-- After a committed step: the instruction just executed, the register-file snapshot and the data-memory snapshot. -/
  | stepped (executed : Instr) (registers : RegSnapshot) (data : List Word)
  deriving DecidableEq, Repr

/-- The record of a load: none for a run that no good load began (70_reset_and_hazards.md R180). -/
def loadTrace (s : State) : Option TraceRecord :=
  match s.mode with
  | .faulted _ _ => none
  | _ => some (.loaded s.imem s.dmem.words)

/-- The record of the step that a state is about to take: the snapshots are those after the commit. A step that faults, or does
not happen, gives none; what the sink prints for a faulting step is its own business (92_eei_decisions.md D27; log entry 10). -/
def stepTrace (s : State) : Option TraceRecord :=
  match s.mode, step s with
  | .running pc, .next t =>
    match t.mode, s.fetch pc with
    | .faulted _ _, _ => none
    | _, some i => some (.stepped i t.snapshot t.dmem.words)
    | _, none => none
  | _, _ => none

/-- What a run leaves beside its terminal state: the output stream, the final registers and the final data memory (R47). -/
structure RunResult where
  out : List Int
  registers : RegSnapshot
  data : List Word
  deriving DecidableEq, Repr

/-- The observation of an ended run (R47): the terminal state, the exit status, and what the run leaves, where anything of it is
observable. -/
structure Observation where
  terminal : Mode
  exitStatus : Nat
  result : Option RunResult
  deriving DecidableEq, Repr

/-- What the state leaves to be observed: nothing when the load met an illegal word, for "no register, memory or output state is
ever observable for such a run" (70_reset_and_hazards.md R180). -/
def State.runResult (s : State) : Option RunResult :=
  match s.mode with
  | .faulted .decodeError _ => none
  | _ => some { out := s.out, registers := s.snapshot, data := s.dmem.words }

/-- What an ended run shows; a running machine has no observation yet (R47). -/
def State.observe (s : State) : Option Observation :=
  s.mode.exitStatus.map fun status => { terminal := s.mode, exitStatus := status, result := s.runResult }

end Sys2Proof.Machine
end

