-- ==== Sys2Proof/Safety.lean ====
section
/-! DEFINITION. The terms claims are stated in: the state invariant, what an instruction may write and may fault for, the engine
state after a step, and how a word stands for an instruction. None of it is used by the machine. -/

namespace Sys2Proof

/-- A field placed at bit `k` of a word, as the rules' encodings write it: `field << k` (41_muldiv.md R120 and the like). -/
def fieldAt {n : Nat} (field : BitVec n) (k : Nat) : Word := field.setWidth 32 <<< k

/-- `word` is the canonical word of `i`, and it decodes to `i` whatever stands in the bits of `ignored` (30_encoding.md R89). -/
def EncodedAs (i : Instr) (word ignored : Word) : Prop :=
  encode i = word ∧ ∀ w : Word, w &&& ~~~ignored = word → decode w = .ok i

end Sys2Proof

namespace Sys2Proof.Machine

/-- A machine that has ended with an error. -/
def Mode.isFaulted : Mode → Bool
  | .faulted _ _ => true
  | _ => false

/-- The machine can take a step as far as its engine state says. -/
def Mode.isRunning : Mode → Bool
  | .running _ => true
  | _ => false

/-- The engine state after a committed step that advances sequentially from `pc`: the next index, or `Halted` when that is the
end of the program (10_state.md R41, R42) or the step was the last of the `N` (R46). -/
def afterSequential (s : State) (pc : Nat) : Mode :=
  if pc + 1 = s.imem.length ∨ s.steps + 1 = s.imem.length then .halted else .running (pc + 1)

/-- The engine state after a committed step that goes to the index `t`: there, or `Halted` when the step was the last of the
`N` (R46). -/
def afterTarget (s : State) (t : Nat) : Mode :=
  if s.steps + 1 = s.imem.length then .halted else .running t

/-- The general register an instruction may write (30_encoding.md R90; for `syscall` the implicit `x[2]` of 40_syscall.md
R110). -/
def destinationOf : Instr → Option Reg
  | .syscall => some Reg.v0
  | .mfhi rd | .mflo rd => some rd
  | .addu rd _ _ | .subu rd _ _ | .and rd _ _ | .or rd _ _ | .slt rd _ _ => some rd
  | .addiu rt _ _ | .lw rt _ _ => some rt
  | .mult _ _ | .div _ _ | .j _ | .beq _ _ _ | .bne _ _ _ | .sw _ _ _ => none

/-- The data index an instruction stores to, computed as its meaning computes it (44_loadstore.md R151). -/
def storeIndexOf (i : Instr) (s : State) : Option Int :=
  match i with
  | .sw _ rs imm => some (s.effectiveIndex rs imm)
  | _ => none

/-- Whether an instruction's control choice is a branch that is taken in this state (43_control.md R141, R142). -/
def takesBranch (i : Instr) (s : State) : Bool :=
  match i with
  | .beq rs rt _ => s.readReg rs = s.readReg rt
  | .bne rs rt _ => s.readReg rs ≠ s.readReg rt
  | _ => false

/-- The reasons an instruction can fault for (60_exceptions.md R160). -/
def faultReasonsOf : Instr → List FaultReason
  | .syscall => [.invalidSyscall]
  | .mfhi _ | .mflo _ => [.zeroRegisterWrite]
  | .mult _ _ => []
  | .div _ _ => [.divideByZero, .divideOverflow]
  | .addu _ _ _ | .subu _ _ _ | .and _ _ _ | .or _ _ _ | .slt _ _ _ | .addiu _ _ _ => [.zeroRegisterWrite]
  | .j _ => [.invalidJumpTarget]
  | .beq _ _ _ | .bne _ _ _ => [.invalidBranchTarget]
  | .lw _ _ _ => [.invalidDataAddress, .zeroRegisterWrite]
  | .sw _ _ _ => [.invalidDataAddress]

/-- The engine state is one a run can be in (10_state.md R27, R28, R30, R46; 60_exceptions.md R160, R161): a running machine has
its pc and its step count below `N`; a halted one has not run past `N`; a faulted one stopped at a pc of the program, or at
load before any step, and never for malformed text. -/
def State.engineOk (s : State) : Prop :=
  match s.mode with
  | .running pc => pc < s.imem.length ∧ s.steps < s.imem.length
  | .halted => s.steps ≤ s.imem.length
  | .faulted reason location =>
    (reason = .decodeError ∧ 1 ≤ location ∧ s.steps = 0) ∨
    (reason ≠ .decodeError ∧ reason ≠ .malformedInput ∧ location < s.imem.length ∧ s.steps < s.imem.length)

/-- The state invariant: what holds after every load and is kept by every step. -/
structure State.Inv (s : State) : Prop where
  /-- The zero register's stored value is 0 (10_state.md R22). -/
  zero_stored : s.x[0] = 0
  /-- Data memory is in its canonical form, every cell inside `[0, M)` (20_memory.md R60; log entry 4). -/
  dmem_wf : s.dmem.wf = true
  /-- The engine state is one a run can be in. -/
  engine : s.engineOk
  /-- The launch bounds hold (00_scope.md R6). -/
  sizes : launchSizesOk s.imem.length s.dmem.size = true
  /-- Every emitted value is a signed 32-bit value (10_state.md R33). -/
  out_signed : ∀ v ∈ s.out, -2 ^ 31 ≤ v ∧ v < 2 ^ 31

end Sys2Proof.Machine
end

