-- ==== Sys2Proof/Certificates/Slice0/Obligations.lean ====
section
/-! DEFINITION. The statements for the provers, each from the rules of spec/ that OBLIGATIONS.json cites for it. None of them
speaks of a program; those about a next state give it whole, so that they state the frame as well. -/

open Sys2Proof Sys2Proof.Machine

/-- For every state and register: register 0 reads as 0 whatever the register file stores there, also after any update of that
storage, and a register other than 0 reads the word stored for it. After every step from a state that stores 0 in x[0], x[0]
still stores 0. (R22) -/
def Obligations.ReadOfRegisterZeroIsZero : Prop :=
  (∀ s : State, s.readReg 0 = 0) ∧
  (∀ (s : State) (r : Reg) (v : Word), (s.setX r v).readReg 0 = 0) ∧
  (∀ (s : State) (r : Reg), r ≠ 0 → s.readReg r = s.x[r.toNat]'r.isLt) ∧
  (∀ s t : State, s.x[0] = 0 → step s = .next t → t.x[0] = 0)

/-- For every launch within the bounds all of whose words decode, the load answers a state in which x[28] holds bv32(N), every
other general register, HI, LO and steps are 0, the engine is Running(0) (Halted when N = 0), IMEM[k] is the decoded word k,
DMEM[k] is the data word k, the lengths are N and M, and the output stream is empty. (R26, R181) -/
def Obligations.LoadEstablishesResetState : Prop :=
  ∀ l : Launch, l.wellFormed = true → (∀ w ∈ l.program, ∃ i, decode w = .ok i) →
    ∃ t : State, load l = .next t ∧
      (∀ r : Reg, t.readReg r = if r = 28 then bv32 l.program.length else 0) ∧ t.x[0] = 0 ∧
      t.hi = 0 ∧ t.lo = 0 ∧ t.steps = 0 ∧ t.out = [] ∧
      t.mode = (if l.program.length = 0 then .halted else .running 0) ∧
      t.imem.length = l.program.length ∧
      (∀ k (h : k < l.program.length) (h' : k < t.imem.length), decode l.program[k] = .ok t.imem[k]) ∧
      t.dmem.size = l.data.length ∧
      (∀ k (h : k < l.data.length), t.dmem.read k = l.data[k])

/-- For every launch within the bounds whose program is empty, the load answers a Halted state with no step counted, from which
no step is possible, and whose exit status is 0. Rests on the decision D11 that R182 marks as the spec's own; State.reset
itself is the load of the empty launch (log entry 3). (70_reset_and_hazards.md R182, 92_eei_decisions.md D11, R35) -/
def Obligations.EmptyProgramHaltsAtLoad : Prop :=
  (∀ l : Launch, l.wellFormed = true → l.program = [] →
    ∃ t : State, load l = .next t ∧ t.mode = .halted ∧ t.steps = 0 ∧ step t = .fault .haltedIsTerminal ∧
      t.mode.exitStatus = some 0) ∧
  load { program := [], data := [] } = .next State.reset

/-- For every launch within the bounds and every index k whose word does not decode while every earlier word does, the load
answers a state Faulted(DecodeError, k + 1) with no step counted, and no instruction executes there. That the position is
the word index is the decision D14 that R94 marks as the spec's own. (30_encoding.md R94, 92_eei_decisions.md D14,
70_reset_and_hazards.md R180) -/
def Obligations.DecodeErrorAbortsLoad : Prop :=
  ∀ (l : Launch) (k : Nat) (hk : k < l.program.length), l.wellFormed = true →
    (∃ e, decode l.program[k] = .error e) →
    (∀ j (hj : j < k), ∃ i, decode (l.program[j]'(hj.trans hk)) = .ok i) →
    ∃ t : State, load l = .next t ∧ t.mode = .faulted .decodeError (k + 1) ∧ t.steps = 0 ∧
      step t = .fault .faultedIsTerminal ∧ ∀ i, exec i t = .fault .faultedIsTerminal

/-- The loader refuses a launch exactly when its instruction count is above 2^31 - 1 or its instruction and data counts together
are above 2^31 - 2^15; a program text that was malformed never reaches the core. The bounds are the decisions D7 and D23,
the spec's own (log entry 9). That malformed text is answered with a refusal of that name is the model's reading of R165 and
U16, log entry 13 (DEDUCED). (00_scope.md R6, 92_eei_decisions.md D7, 92_eei_decisions.md D23, 93_implementation_defined.md
U11, 60_exceptions.md R165, 93_implementation_defined.md U16) -/
def Obligations.LaunchBeyondBoundsIsRefused : Prop :=
  (∀ l : Launch, load l = .refused .launchTooLarge ↔
    (2 ^ 31 - 1 < l.program.length ∨ 2 ^ 31 - 2 ^ 15 < l.program.length + l.data.length)) ∧
  (∀ line : Nat, loadSupplied (.malformedText line) = .refused (.malformedText line))

/-- In a Halted or Faulted state neither the step nor the execution of any instruction answers a next state; each stops under
the name of that terminal state. (R29) -/
def Obligations.TerminalStatesTakeNoStep : Prop :=
  ∀ s : State,
    (s.mode = .halted → step s = .fault .haltedIsTerminal ∧ ∀ i, exec i s = .fault .haltedIsTerminal) ∧
    (∀ reason location, s.mode = .faulted reason location →
      step s = .fault .faultedIsTerminal ∧ ∀ i, exec i s = .fault .faultedIsTerminal)

/-- If the machine is running at pc and IMEM[pc] is the instruction that a word decodes to, the step is exec of that
instruction. If a launch loads without a fault, then in every state with that IMEM that runs at an index k of the program,
the step is exec of the instruction that word k of the program decodes to. (10_state.md R31, 10_state.md R38,
70_reset_and_hazards.md R180) -/
def Obligations.StepExecutesTheDecodedInstruction : Prop :=
  (∀ (s : State) (pc : Nat) (w : Word) (i : Instr), s.mode = .running pc → decode w = .ok i → s.imem[pc]? = some i →
    step s = exec i s) ∧
  (∀ (l : Launch) (t : State), load l = .next t → t.mode.isFaulted = false →
    ∀ k (hk : k < l.program.length), ∃ i, decode l.program[k] = .ok i ∧
      ∀ s : State, s.imem = t.imem → s.mode = .running k → step s = exec i s)

/-- For every state, bit count and word whose table word decodes to an instruction, the step of the state with that word placed
is exec of that instruction there, and the state is running. From State.reset the placed state is the state that the load of
the one-word program answers. That a program is loaded from outside is the model's reading, log entry 3. (10_state.md R31,
10_state.md R38, 70_reset_and_hazards.md R181) -/
def Obligations.PlacedWordIsTheNextInstruction : Prop :=
  (∀ (s : State) (nbits w : Nat) (i : Instr), decodeTableWord nbits w = some i →
    (s.withFetchWord nbits w).mode.isRunning = true ∧
    step (s.withFetchWord nbits w) = exec i (s.withFetchWord nbits w)) ∧
  (∀ (w : Word) (i : Instr), decode w = .ok i →
    load { program := [w], data := [] } = .next (State.reset.withFetchWord 32 w.toNat))

/-- One word of each format and family, as written in 95_test_vectors.md, decodes to the instruction it stands for, and four
illegal words are rejected by name. (95_test_vectors.md L2-DEC, 30_encoding.md R81, 30_encoding.md R84, 30_encoding.md R87) -/
def Obligations.SampleWordsDecode : Prop :=
  decode 0x03FFFFCC = .ok .syscall ∧
  decode 0x03E0F810 = .ok (.mfhi 31) ∧
  decode 0x0109001A = .ok (.div 8 9) ∧
  decode 0x010957E1 = .ok (.addu 10 8 9) ∧
  decode 0x0128502A = .ok (.slt 10 9 8) ∧
  decode 0x0BFFFFFF = .ok (.j 67108863) ∧
  decode 0x1500FFFE = .ok (.bne 8 0 0xFFFE) ∧
  decode 0x24080003 = .ok (.addiu 8 0 3) ∧
  decode 0x8C080004 = .ok (.lw 8 0 4) ∧
  decode 0xAF8B0002 = .ok (.sw 11 28 2) ∧
  decode 0x00000000 = .error (.unsupportedFunction 0) ∧
  decode 0x0C000000 = .error (.unsupportedOpcode 3) ∧
  decode 0x20000000 = .error (.unsupportedOpcode 8) ∧
  decode 0xFC00000C = .error (.unsupportedOpcode 63)

/-- For all sixteen instructions and every value of every operand field, decode of encode is the instruction itself.
(30_encoding.md R81, 30_encoding.md R82, 30_encoding.md R90, 30_encoding.md R93) -/
def Obligations.DecodeOfEncodeIsIdentity : Prop :=
  ∀ i : Instr, decode (encode i) = .ok i

/-- For every word and instruction: the word decodes to the instruction if and only if, with the bits of the fields the mnemonic
does not use set to zero, it is the instruction's encoding. So no bit in use is dropped or misread, and no ignored bit
matters. (30_encoding.md R84, 30_encoding.md R85, 30_encoding.md R87, 30_encoding.md R89, 92_eei_decisions.md D6) -/
def Obligations.DecodeIsExactlyTheEncodingUpToIgnoredBits : Prop :=
  ∀ (w : Word) (i : Instr), decode w = .ok i ↔ w &&& ~~~ignoredBits i = encode i

/-- A word gives DecodeError if and only if its opcode is one of 1, 3, 6, 7, 8, 10 to 34, 36 to 42, 44 to 63, or its opcode is 0
and its function code is none of the ten supported ones; the word 0 is such a word; and a launch (within the bounds) that
holds such a word anywhere ends its load in Faulted(DecodeError, k) for some k. (R96) -/
def Obligations.IllegalEncodingsAreExactlyTheListedSets : Prop :=
  (∀ w : Word, (∃ e, decode w = .error e) ↔
    ((opcodeOf w).toNat ∈ [1, 3, 6, 7, 8] ∨ (10 ≤ (opcodeOf w).toNat ∧ (opcodeOf w).toNat ≤ 34) ∨
      (36 ≤ (opcodeOf w).toNat ∧ (opcodeOf w).toNat ≤ 42) ∨ 44 ≤ (opcodeOf w).toNat ∨
      ((opcodeOf w).toNat = 0 ∧ (functOf w).toNat ∉ [12, 16, 18, 24, 26, 33, 35, 36, 37, 42]))) ∧
  (∃ e, decode 0x00000000 = .error e) ∧
  (∀ l : Launch, l.wellFormed = true → (∃ w ∈ l.program, ∃ e, decode w = .error e) →
    ∃ (t : State) (k : Nat), load l = .next t ∧ t.mode = .faulted .decodeError k)

/-- For every word, valid is false if and only if decode gives an error. For every word that decodes to an instruction, valid is
true, the mnemonic port is that instruction's, the ports of exactly the roles that R90 lists for it carry the word's own
fields, and every other field port is a don't-care, which the model writes none (log entry 15). (30_encoding.md R95,
30_encoding.md R90, 92_eei_decisions.md D20) -/
def Obligations.DecoderPortsCarryTheFields : Prop :=
  (∀ w : Word, (decoderPorts w).valid = false ↔ ∃ e, decode w = .error e) ∧
  (∀ (w : Word) (i : Instr), decode w = .ok i →
    match i with
    | .syscall => decoderPorts w = { valid := true, mnemonic := some .syscall }
    | .mfhi _ => decoderPorts w = { valid := true, mnemonic := some .mfhi, rd := some (rdOf w) }
    | .mflo _ => decoderPorts w = { valid := true, mnemonic := some .mflo, rd := some (rdOf w) }
    | .mult _ _ => decoderPorts w = { valid := true, mnemonic := some .mult, rs := some (rsOf w), rt := some (rtOf w) }
    | .div _ _ => decoderPorts w = { valid := true, mnemonic := some .div, rs := some (rsOf w), rt := some (rtOf w) }
    | .addu _ _ _ => decoderPorts w =
      { valid := true, mnemonic := some .addu, rs := some (rsOf w), rt := some (rtOf w), rd := some (rdOf w) }
    | .subu _ _ _ => decoderPorts w =
      { valid := true, mnemonic := some .subu, rs := some (rsOf w), rt := some (rtOf w), rd := some (rdOf w) }
    | .and _ _ _ => decoderPorts w =
      { valid := true, mnemonic := some .and, rs := some (rsOf w), rt := some (rtOf w), rd := some (rdOf w) }
    | .or _ _ _ => decoderPorts w =
      { valid := true, mnemonic := some .or, rs := some (rsOf w), rt := some (rtOf w), rd := some (rdOf w) }
    | .slt _ _ _ => decoderPorts w =
      { valid := true, mnemonic := some .slt, rs := some (rsOf w), rt := some (rtOf w), rd := some (rdOf w) }
    | .j _ => decoderPorts w = { valid := true, mnemonic := some .j, target := some (targetOf w) }
    | .beq _ _ _ => decoderPorts w =
      { valid := true, mnemonic := some .beq, rs := some (rsOf w), rt := some (rtOf w), imm := some (immOf w) }
    | .bne _ _ _ => decoderPorts w =
      { valid := true, mnemonic := some .bne, rs := some (rsOf w), rt := some (rtOf w), imm := some (immOf w) }
    | .addiu _ _ _ => decoderPorts w =
      { valid := true, mnemonic := some .addiu, rs := some (rsOf w), rt := some (rtOf w), imm := some (immOf w) }
    | .lw _ _ _ => decoderPorts w =
      { valid := true, mnemonic := some .lw, rs := some (rsOf w), rt := some (rtOf w), imm := some (immOf w) }
    | .sw _ _ _ => decoderPorts w =
      { valid := true, mnemonic := some .sw, rs := some (rsOf w), rt := some (rtOf w), imm := some (immOf w) })

/-- In a running machine with 1 in x[2], syscall answers the state with sint(x[4]) appended to the output stream, one more step
counted and the engine advanced sequentially; nothing else changes. The word 0x0000000C, with anything in its register and
shamt fields, is syscall: that those fields are ignored is the decision D6 that R89 marks as the spec's own. (40_syscall.md
R110, 40_syscall.md R111, 30_encoding.md R89, 92_eei_decisions.md D6) -/
def Obligations.SyscallOnePrints : Prop :=
  EncodedAs .syscall 0x0000000C 0x03FFFFC0 ∧
  ∀ (s : State) (pc : Nat), s.mode = .running pc → sint (s.readReg 2) = 1 →
    exec .syscall s = .next { s with
      out := s.out ++ [sint (s.readReg 4)], steps := s.steps + 1, mode := afterSequential s pc }

/-- In a running machine with 5 in x[2]: when the next host answer is fixed, x[2] becomes that value; when none is fixed, x[2]
becomes the free value of that draw; in both cases the draw is taken, the step is counted and the engine advances
sequentially; when the host never answers, the step has no successor. How the draws are held is the model's choice, log
entry 5. (40_syscall.md R112, 10_state.md R33, 70_reset_and_hazards.md R186, 92_eei_decisions.md D15) -/
def Obligations.SyscallFiveReadsTheHost : Prop :=
  ∀ (s : State) (pc : Nat), s.mode = .running pc → sint (s.readReg 2) = 5 →
    (∀ v rest, s.input = .value v :: rest → exec .syscall s = .next { s with
      x := s.x.set 2 v, input := rest, drawn := s.drawn + 1, steps := s.steps + 1, mode := afterSequential s pc }) ∧
    (s.input = [] → exec .syscall s = .next { s with
      x := s.x.set 2 (Config.hostInput s.drawn), drawn := s.drawn + 1, steps := s.steps + 1,
      mode := afterSequential s pc }) ∧
    (∀ rest, s.input = .never :: rest → exec .syscall s = .fault .hostNeverAnswers)

/-- In a running machine with 10 in x[2], syscall answers the Halted state with one more step counted and nothing else changed,
and the exit status there is 0. (R113) -/
def Obligations.SyscallTenHalts : Prop :=
  ∀ (s : State) (pc : Nat), s.mode = .running pc → sint (s.readReg 2) = 10 →
    exec .syscall s = .next { s with steps := s.steps + 1, mode := .halted } ∧ Mode.halted.exitStatus = some 0

/-- In a running machine whose x[2], as a signed value, is none of 1, 5 and 10, syscall answers the state with the engine
Faulted(InvalidSyscall, pc) and nothing else changed. (R114) -/
def Obligations.SyscallOtherCodesFault : Prop :=
  ∀ (s : State) (pc : Nat), s.mode = .running pc →
    sint (s.readReg 2) ≠ 1 → sint (s.readReg 2) ≠ 5 → sint (s.readReg 2) ≠ 10 →
    exec .syscall s = .next { s with mode := .faulted .invalidSyscall pc }

/-- The word of mfhi is (rd << 11) | 0x10, with rs, rt and shamt ignored. In a running machine, mfhi with rd not 0 answers the
state with x[rd] = HI, the step counted and the engine advanced sequentially, nothing else changed; with rd = 0 it enters
Faulted(ZeroRegisterWrite, pc) and commits nothing. (R120) -/
def Obligations.MfhiCopiesHi : Prop :=
  ∀ rd : Reg, EncodedAs (.mfhi rd) (fieldAt rd 11 ||| 0x10) 0x03FF07C0 ∧
    ∀ (s : State) (pc : Nat), s.mode = .running pc →
      (rd ≠ 0 → exec (.mfhi rd) s = .next { s with
        x := s.x.set rd.toNat s.hi rd.isLt, steps := s.steps + 1, mode := afterSequential s pc }) ∧
      (rd = 0 → exec (.mfhi rd) s = .next { s with mode := .faulted .zeroRegisterWrite pc })

/-- The word of mflo is (rd << 11) | 0x12, with rs, rt and shamt ignored. In a running machine, mflo with rd not 0 answers the
state with x[rd] = LO, the step counted and the engine advanced sequentially, nothing else changed; with rd = 0 it enters
Faulted(ZeroRegisterWrite, pc) and commits nothing. (R121) -/
def Obligations.MfloCopiesLo : Prop :=
  ∀ rd : Reg, EncodedAs (.mflo rd) (fieldAt rd 11 ||| 0x12) 0x03FF07C0 ∧
    ∀ (s : State) (pc : Nat), s.mode = .running pc →
      (rd ≠ 0 → exec (.mflo rd) s = .next { s with
        x := s.x.set rd.toNat s.lo rd.isLt, steps := s.steps + 1, mode := afterSequential s pc }) ∧
      (rd = 0 → exec (.mflo rd) s = .next { s with mode := .faulted .zeroRegisterWrite pc })

/-- The word of mult is (rs << 21) | (rt << 16) | 0x18, with rd and shamt ignored. In a running machine, mult answers the state
with LO the low and HI the high 32 bits of the product modulo 2^64, the step counted and the engine advanced sequentially;
nothing else changes. (R122) -/
def Obligations.MultSplitsTheSignedProduct : Prop :=
  ∀ rs rt : Reg, EncodedAs (.mult rs rt) (fieldAt rs 21 ||| fieldAt rt 16 ||| 0x18) 0x0000FFC0 ∧
    ∀ (s : State) (pc : Nat), s.mode = .running pc →
      exec (.mult rs rt) s = .next { s with
        hi := (BitVec.ofInt 64 (sint (s.readReg rs) * sint (s.readReg rt))).extractLsb' 32 32
        lo := (BitVec.ofInt 64 (sint (s.readReg rs) * sint (s.readReg rt))).extractLsb' 0 32
        steps := s.steps + 1
        mode := afterSequential s pc }

/-- Whenever mult answers a next state, the signed value of HI times 2^32 plus the unsigned value of LO equals the product of
the signed values of the two operands: nothing is truncated. (41_muldiv.md R122, 00_scope.md R8) -/
def Obligations.MultProductIsExact : Prop :=
  ∀ (s t : State) (rs rt : Reg), exec (.mult rs rt) s = .next t →
    sint t.hi * 2 ^ 32 + uint t.lo = sint (s.readReg rs) * sint (s.readReg rt)

/-- The word of div is (rs << 21) | (rt << 16) | 0x1A, with rd and shamt ignored. In a running machine with both operands non-
zero: unless they are -2^31 and -1, div answers the state with LO the quotient truncated toward zero and HI the remainder,
the step counted and the engine advanced sequentially, nothing else changed; for -2^31 and -1 it enters
Faulted(DivideOverflow, pc) and commits nothing, which R125 marks as the decision D8. (41_muldiv.md R123, 00_scope.md R9,
41_muldiv.md R125, 92_eei_decisions.md D8) -/
def Obligations.DivWritesQuotientAndRemainder : Prop :=
  ∀ rs rt : Reg, EncodedAs (.div rs rt) (fieldAt rs 21 ||| fieldAt rt 16 ||| 0x1A) 0x0000FFC0 ∧
    ∀ (s : State) (pc : Nat) (a b : Int), s.mode = .running pc → sint (s.readReg rs) = a → sint (s.readReg rt) = b →
      a ≠ 0 → b ≠ 0 →
      (¬(a = -2 ^ 31 ∧ b = -1) → exec (.div rs rt) s = .next { s with
        lo := bv32 ((a * b).sign * ((a.natAbs / b.natAbs : Nat) : Int))
        hi := bv32 (a - b * ((a * b).sign * ((a.natAbs / b.natAbs : Nat) : Int)))
        steps := s.steps + 1
        mode := afterSequential s pc }) ∧
      (a = -2 ^ 31 ∧ b = -1 → exec (.div rs rt) s = .next { s with mode := .faulted .divideOverflow pc })

/-- In a running machine, when x[rt] or x[rs] is zero, div enters Faulted(DivideByZero, pc) and changes nothing else. (R124) -/
def Obligations.DivByOrOfZeroFaults : Prop :=
  ∀ (rs rt : Reg) (s : State) (pc : Nat), s.mode = .running pc → s.readReg rt = 0 ∨ s.readReg rs = 0 →
    exec (.div rs rt) s = .next { s with mode := .faulted .divideByZero pc }

/-- Whenever div answers a next state that is not Faulted, the signed values of LO and HI are the quotient and remainder of the
operands truncated toward zero, exactly: a = b * LO + HI, the remainder is smaller than the divisor in magnitude and is zero
or has the sign of the dividend. (00_scope.md R9, 41_muldiv.md R123) -/
def Obligations.DivResultsObeyTheDivisionLaw : Prop :=
  ∀ (s t : State) (rs rt : Reg), exec (.div rs rt) s = .next t → t.mode.isFaulted = false →
    sint (s.readReg rs) = sint (s.readReg rt) * sint t.lo + sint t.hi ∧
    (sint t.hi).natAbs < (sint (s.readReg rt)).natAbs ∧
    (sint t.hi = 0 ∨ (sint t.hi).sign = (sint (s.readReg rs)).sign)

/-- The word of addu is (rs << 21) | (rt << 16) | (rd << 11) | 0x21, with shamt ignored. In a running machine, addu with rd not
0 answers the state with x[rd] = bv32(uint(x[rs]) + uint(x[rt])), from the registers before the step, the step counted and
the engine advanced sequentially, nothing else changed; with rd = 0 it enters Faulted(ZeroRegisterWrite, pc) and commits
nothing. (R130) -/
def Obligations.AdduAddsWithWraparound : Prop :=
  ∀ rd rs rt : Reg,
    EncodedAs (.addu rd rs rt) (fieldAt rs 21 ||| fieldAt rt 16 ||| fieldAt rd 11 ||| 0x21) 0x000007C0 ∧
    ∀ (s : State) (pc : Nat), s.mode = .running pc →
      (rd ≠ 0 → exec (.addu rd rs rt) s = .next { s with
        x := s.x.set rd.toNat (bv32 (uint (s.readReg rs) + uint (s.readReg rt))) rd.isLt
        steps := s.steps + 1
        mode := afterSequential s pc }) ∧
      (rd = 0 → exec (.addu rd rs rt) s = .next { s with mode := .faulted .zeroRegisterWrite pc })

/-- The word of subu is (rs << 21) | (rt << 16) | (rd << 11) | 0x23, with shamt ignored. In a running machine, subu with rd not
0 answers the state with x[rd] = bv32(uint(x[rs]) - uint(x[rt])), from the registers before the step, the step counted and
the engine advanced sequentially, nothing else changed; with rd = 0 it enters Faulted(ZeroRegisterWrite, pc) and commits
nothing. (R131) -/
def Obligations.SubuSubtractsWithWraparound : Prop :=
  ∀ rd rs rt : Reg,
    EncodedAs (.subu rd rs rt) (fieldAt rs 21 ||| fieldAt rt 16 ||| fieldAt rd 11 ||| 0x23) 0x000007C0 ∧
    ∀ (s : State) (pc : Nat), s.mode = .running pc →
      (rd ≠ 0 → exec (.subu rd rs rt) s = .next { s with
        x := s.x.set rd.toNat (bv32 (uint (s.readReg rs) - uint (s.readReg rt))) rd.isLt
        steps := s.steps + 1
        mode := afterSequential s pc }) ∧
      (rd = 0 → exec (.subu rd rs rt) s = .next { s with mode := .faulted .zeroRegisterWrite pc })

/-- The word of and is (rs << 21) | (rt << 16) | (rd << 11) | 0x24, with shamt ignored. In a running machine, and with rd not 0
answers the state with x[rd] = x[rs] AND x[rt], bit by bit, from the registers before the step, the step counted and the
engine advanced sequentially, nothing else changed; with rd = 0 it enters Faulted(ZeroRegisterWrite, pc) and commits
nothing. (R132) -/
def Obligations.AndIsBitwise : Prop :=
  ∀ rd rs rt : Reg,
    EncodedAs (.and rd rs rt) (fieldAt rs 21 ||| fieldAt rt 16 ||| fieldAt rd 11 ||| 0x24) 0x000007C0 ∧
    ∀ (s : State) (pc : Nat), s.mode = .running pc →
      (rd ≠ 0 → exec (.and rd rs rt) s = .next { s with
        x := s.x.set rd.toNat ((s.readReg rs &&& s.readReg rt)) rd.isLt
        steps := s.steps + 1
        mode := afterSequential s pc }) ∧
      (rd = 0 → exec (.and rd rs rt) s = .next { s with mode := .faulted .zeroRegisterWrite pc })

/-- The word of or is (rs << 21) | (rt << 16) | (rd << 11) | 0x25, with shamt ignored. In a running machine, or with rd not 0
answers the state with x[rd] = x[rs] OR x[rt], bit by bit, from the registers before the step, the step counted and the
engine advanced sequentially, nothing else changed; with rd = 0 it enters Faulted(ZeroRegisterWrite, pc) and commits
nothing. (R133) -/
def Obligations.OrIsBitwise : Prop :=
  ∀ rd rs rt : Reg,
    EncodedAs (.or rd rs rt) (fieldAt rs 21 ||| fieldAt rt 16 ||| fieldAt rd 11 ||| 0x25) 0x000007C0 ∧
    ∀ (s : State) (pc : Nat), s.mode = .running pc →
      (rd ≠ 0 → exec (.or rd rs rt) s = .next { s with
        x := s.x.set rd.toNat ((s.readReg rs ||| s.readReg rt)) rd.isLt
        steps := s.steps + 1
        mode := afterSequential s pc }) ∧
      (rd = 0 → exec (.or rd rs rt) s = .next { s with mode := .faulted .zeroRegisterWrite pc })

/-- The word of slt is (rs << 21) | (rt << 16) | (rd << 11) | 0x2A, with shamt ignored. In a running machine, slt with rd not 0
answers the state with x[rd] = 1 if sint(x[rs]) < sint(x[rt]), else 0, from the registers before the step, the step counted
and the engine advanced sequentially, nothing else changed; with rd = 0 it enters Faulted(ZeroRegisterWrite, pc) and commits
nothing. (R134) -/
def Obligations.SltComparesSigned : Prop :=
  ∀ rd rs rt : Reg,
    EncodedAs (.slt rd rs rt) (fieldAt rs 21 ||| fieldAt rt 16 ||| fieldAt rd 11 ||| 0x2A) 0x000007C0 ∧
    ∀ (s : State) (pc : Nat), s.mode = .running pc →
      (rd ≠ 0 → exec (.slt rd rs rt) s = .next { s with
        x := s.x.set rd.toNat ((if sint (s.readReg rs) < sint (s.readReg rt) then 1 else 0)) rd.isLt
        steps := s.steps + 1
        mode := afterSequential s pc }) ∧
      (rd = 0 → exec (.slt rd rs rt) s = .next { s with mode := .faulted .zeroRegisterWrite pc })

/-- The word of addiu is (9 << 26) | (rs << 21) | (rt << 16) | imm. In a running machine, addiu with rt not 0 answers the state
with x[rt] = bv32(sint(x[rs]) + the signed value of imm), the step counted and the engine advanced sequentially, nothing
else changed; with rt = 0 it enters Faulted(ZeroRegisterWrite, pc) and commits nothing. (R135) -/
def Obligations.AddiuAddsSignExtendedImmediate : Prop :=
  ∀ (rt rs : Reg) (imm : Imm16),
    EncodedAs (.addiu rt rs imm) (fieldAt 9#6 26 ||| fieldAt rs 21 ||| fieldAt rt 16 ||| fieldAt imm 0) 0 ∧
    ∀ (s : State) (pc : Nat), s.mode = .running pc →
      (rt ≠ 0 → exec (.addiu rt rs imm) s = .next { s with
        x := s.x.set rt.toNat (bv32 (sint (s.readReg rs) + imm.toInt)) rt.isLt
        steps := s.steps + 1
        mode := afterSequential s pc }) ∧
      (rt = 0 → exec (.addiu rt rs imm) s = .next { s with mode := .faulted .zeroRegisterWrite pc })

/-- The word of j is (2 << 26) | target. In a running machine, when the unsigned target is below N, j answers the state with the
step counted and the engine at the target (or Halted when that was the last of the N steps), nothing else changed; otherwise
it enters Faulted(InvalidJumpTarget, pc) and commits nothing. (R140) -/
def Obligations.JumpGoesToTheAbsoluteIndex : Prop :=
  ∀ target : Target26,
    EncodedAs (.j target) (fieldAt 2#6 26 ||| fieldAt target 0) 0 ∧
    ∀ (s : State) (pc : Nat), s.mode = .running pc →
      (target.toNat < s.imem.length → exec (.j target) s = .next { s with
        steps := s.steps + 1, mode := afterTarget s target.toNat }) ∧
      (s.imem.length ≤ target.toNat → exec (.j target) s = .next { s with mode := .faulted .invalidJumpTarget pc })

/-- The word of beq is (4 << 26) | (rs << 21) | (rt << 16) | imm. In a running machine at pc, with t = pc + the signed value of
imm: taken with t in [0, N) it goes to t (or Halted after the last of the N steps); taken with t outside it enters
Faulted(InvalidBranchTarget, pc); not taken it advances sequentially, unless CHECK_UNTAKEN_BRANCH_TARGET is true and t is
outside, when it enters Faulted(InvalidBranchTarget, pc). Nothing else changes but the step count of a committed step.
(R141) -/
def Obligations.BeqBranchesWhenEqual : Prop :=
  ∀ (rs rt : Reg) (imm : Imm16),
    EncodedAs (.beq rs rt imm) (fieldAt 4#6 26 ||| fieldAt rs 21 ||| fieldAt rt 16 ||| fieldAt imm 0) 0 ∧
    ∀ (s : State) (pc : Nat) (t : Int), s.mode = .running pc → t = pc + imm.toInt →
      (s.readReg rs = s.readReg rt → 0 ≤ t → t < s.imem.length → exec (.beq rs rt imm) s = .next { s with
        steps := s.steps + 1, mode := afterTarget s t.toNat }) ∧
      (s.readReg rs = s.readReg rt → t < 0 ∨ s.imem.length ≤ t →
        exec (.beq rs rt imm) s = .next { s with mode := .faulted .invalidBranchTarget pc }) ∧
      (s.readReg rs ≠ s.readReg rt → s.config.checkUntakenBranchTarget = false ∨ (0 ≤ t ∧ t < s.imem.length) →
        exec (.beq rs rt imm) s = .next { s with steps := s.steps + 1, mode := afterSequential s pc }) ∧
      (s.readReg rs ≠ s.readReg rt → s.config.checkUntakenBranchTarget = true → t < 0 ∨ s.imem.length ≤ t →
        exec (.beq rs rt imm) s = .next { s with mode := .faulted .invalidBranchTarget pc })

/-- The word of bne is (5 << 26) | (rs << 21) | (rt << 16) | imm. In a running machine at pc, with t = pc + the signed value of
imm: taken with t in [0, N) it goes to t (or Halted after the last of the N steps); taken with t outside it enters
Faulted(InvalidBranchTarget, pc); not taken it advances sequentially, unless CHECK_UNTAKEN_BRANCH_TARGET is true and t is
outside, when it enters Faulted(InvalidBranchTarget, pc). Nothing else changes but the step count of a committed step.
(R142) -/
def Obligations.BneBranchesWhenNotEqual : Prop :=
  ∀ (rs rt : Reg) (imm : Imm16),
    EncodedAs (.bne rs rt imm) (fieldAt 5#6 26 ||| fieldAt rs 21 ||| fieldAt rt 16 ||| fieldAt imm 0) 0 ∧
    ∀ (s : State) (pc : Nat) (t : Int), s.mode = .running pc → t = pc + imm.toInt →
      (s.readReg rs ≠ s.readReg rt → 0 ≤ t → t < s.imem.length → exec (.bne rs rt imm) s = .next { s with
        steps := s.steps + 1, mode := afterTarget s t.toNat }) ∧
      (s.readReg rs ≠ s.readReg rt → t < 0 ∨ s.imem.length ≤ t →
        exec (.bne rs rt imm) s = .next { s with mode := .faulted .invalidBranchTarget pc }) ∧
      (s.readReg rs = s.readReg rt → s.config.checkUntakenBranchTarget = false ∨ (0 ≤ t ∧ t < s.imem.length) →
        exec (.bne rs rt imm) s = .next { s with steps := s.steps + 1, mode := afterSequential s pc }) ∧
      (s.readReg rs = s.readReg rt → s.config.checkUntakenBranchTarget = true → t < 0 ∨ s.imem.length ≤ t →
        exec (.bne rs rt imm) s = .next { s with mode := .faulted .invalidBranchTarget pc })

/-- The word of lw is (35 << 26) | (rs << 21) | (rt << 16) | imm. In a running machine, with ei = the signed imm plus
sint(x[rs]) minus N, exactly: ei outside [0, M) enters Faulted(InvalidDataAddress, pc), also when rt = 0; ei inside and rt =
0 enters Faulted(ZeroRegisterWrite, pc); otherwise lw answers the state with x[rt] = DMEM[ei], the step counted and the
engine advanced sequentially, nothing else changed. (R150) -/
def Obligations.LwLoadsTheWordAtTheEffectiveIndex : Prop :=
  ∀ (rt rs : Reg) (imm : Imm16),
    EncodedAs (.lw rt rs imm) (fieldAt 35#6 26 ||| fieldAt rs 21 ||| fieldAt rt 16 ||| fieldAt imm 0) 0 ∧
    ∀ (s : State) (pc : Nat) (ei : Int), s.mode = .running pc → ei = imm.toInt + sint (s.readReg rs) - s.imem.length →
      (0 ≤ ei → ei < s.dmem.size → rt ≠ 0 → exec (.lw rt rs imm) s = .next { s with
        x := s.x.set rt.toNat (s.dmem.read ei.toNat) rt.isLt
        steps := s.steps + 1
        mode := afterSequential s pc }) ∧
      (0 ≤ ei → ei < s.dmem.size → rt = 0 →
        exec (.lw rt rs imm) s = .next { s with mode := .faulted .zeroRegisterWrite pc }) ∧
      (ei < 0 ∨ s.dmem.size ≤ ei →
        exec (.lw rt rs imm) s = .next { s with mode := .faulted .invalidDataAddress pc })

/-- The word of sw is (43 << 26) | (rs << 21) | (rt << 16) | imm. In a running machine, with ei computed as for lw: ei outside
[0, M) enters Faulted(InvalidDataAddress, pc); otherwise sw answers the state with DMEM[ei] written with x[rt], the step
counted and the engine advanced sequentially, nothing else changed. The written memory reads x[rt] at ei (for a memory in
its canonical form, which every run keeps) and reads as before at every other index. (R151) -/
def Obligations.SwStoresTheWordAtTheEffectiveIndex : Prop :=
  ∀ (rt rs : Reg) (imm : Imm16),
    EncodedAs (.sw rt rs imm) (fieldAt 43#6 26 ||| fieldAt rs 21 ||| fieldAt rt 16 ||| fieldAt imm 0) 0 ∧
    ∀ (s : State) (pc : Nat) (ei : Int), s.mode = .running pc → ei = imm.toInt + sint (s.readReg rs) - s.imem.length →
      (0 ≤ ei → ei < s.dmem.size →
        exec (.sw rt rs imm) s = .next { s with
          dmem := s.dmem.write ei.toNat (s.readReg rt), steps := s.steps + 1, mode := afterSequential s pc } ∧
        (s.dmem.wf = true → (s.dmem.write ei.toNat (s.readReg rt)).read ei.toNat = s.readReg rt) ∧
        ∀ k, k ≠ ei.toNat → (s.dmem.write ei.toNat (s.readReg rt)).read k = s.dmem.read k) ∧
      (ei < 0 ∨ s.dmem.size ≤ ei →
        exec (.sw rt rs imm) s = .next { s with mode := .faulted .invalidDataAddress pc })

/-- In a running machine within the launch bounds whose x[28] holds bv32(N), for an immediate whose signed value is a data index
k below M and a destination that is not register 0, lw through $gp answers a next state whose destination reads DMEM[k], and
sw through $gp answers one whose memory is written at k. (20_memory.md R64, 20_memory.md R61, 10_state.md R26) -/
def Obligations.GpOffsetReachesTheDataWord : Prop :=
  ∀ (s : State) (pc k : Nat) (rt : Reg) (imm : Imm16), s.mode = .running pc →
    launchSizesOk s.imem.length s.dmem.size = true → s.readReg 28 = bv32 s.imem.length → imm.toInt = k →
    k < s.dmem.size →
    (rt ≠ 0 → ∃ t, exec (.lw rt 28 imm) s = .next t ∧ t.readReg rt = s.dmem.read k) ∧
    (∃ t, exec (.sw rt 28 imm) s = .next t ∧ t.dmem = s.dmem.write k (s.readReg rt))

/-- From a state that meets the invariant, when a sw commits and a lw then commits in the state it left: if the two effective
indices are equal the loaded register reads the word the sw stored, and if they differ it reads what data memory held there
before the sw. (20_memory.md R68, 44_loadstore.md R151) -/
def Obligations.StoreThenLoadReturnsTheWord : Prop :=
  ∀ (s t u : State) (rt rs rt' rs' : Reg) (imm imm' : Imm16), s.Inv →
    exec (.sw rt rs imm) s = .next t → t.mode.isFaulted = false →
    exec (.lw rt' rs' imm') t = .next u → u.mode.isFaulted = false →
    (t.effectiveIndex rs' imm' = s.effectiveIndex rs imm → u.readReg rt' = s.readReg rt) ∧
    (t.effectiveIndex rs' imm' ≠ s.effectiveIndex rs imm →
      u.readReg rt' = s.dmem.read (t.effectiveIndex rs' imm').toNat)

/-- In a running machine, of the instructions whose destination is register 0: lw with its effective index outside [0, M) enters
Faulted(InvalidDataAddress, pc), and every other one enters Faulted(ZeroRegisterWrite, pc), each with nothing else changed.
That order is the decision D13 that R166 marks as the spec's own. (10_state.md R23, 60_exceptions.md R166,
92_eei_decisions.md D13) -/
def Obligations.WriteToRegisterZeroFaults : Prop :=
  ∀ (i : Instr) (s : State) (pc : Nat), s.mode = .running pc → destinationOf i = some 0 →
    (∀ rs imm, i = .lw 0 rs imm → (s.effectiveIndex rs imm < 0 ∨ s.dmem.size ≤ s.effectiveIndex rs imm) →
      exec i s = .next { s with mode := .faulted .invalidDataAddress pc }) ∧
    ((∀ rs imm, i = .lw 0 rs imm → 0 ≤ s.effectiveIndex rs imm ∧ s.effectiveIndex rs imm < s.dmem.size) →
      exec i s = .next { s with mode := .faulted .zeroRegisterWrite pc })

/-- Whenever a step ends Faulted, the machine was running, and the state after it is the state before it with the engine state
Faulted(reason, pc), where pc is the index of the faulting instruction. That nothing is committed is the decision D12 that
R39 marks as the spec's own. (60_exceptions.md R161, 10_state.md R39, 60_exceptions.md R162, 92_eei_decisions.md D12) -/
def Obligations.FaultingStepCommitsNothing : Prop :=
  ∀ s t : State, step s = .next t → t.mode.isFaulted = true →
    ∃ pc reason, s.mode = .running pc ∧ t = { s with mode := .faulted reason pc }

/-- Whenever exec of an instruction ends Faulted, the reason is one that 60_exceptions.md R160 lists for that instruction, and
never DecodeError or MalformedInput. (60_exceptions.md R160, 60_exceptions.md R166) -/
def Obligations.FaultReasonsPerInstruction : Prop :=
  ∀ (i : Instr) (s t : State) (reason : FaultReason) (location : Nat), exec i s = .next t →
    t.mode = .faulted reason location →
    reason ∈ faultReasonsOf i ∧ reason ≠ .decodeError ∧ reason ≠ .malformedInput ∧ s.mode = .running location

/-- For every instruction and every running state, exec answers a next state, unless the instruction is syscall with 5 in x[2]
and the next host answer is that the host never answers (log entry 5), when it stops under that name. (10_state.md R38,
60_exceptions.md R167, 40_syscall.md R112, 92_eei_decisions.md D15) -/
def Obligations.RunningMachineAlwaysSteps : Prop :=
  ∀ (i : Instr) (s : State) (pc : Nat), s.mode = .running pc →
    (∃ t, exec i s = .next t) ∨
    (i = .syscall ∧ sint (s.readReg 2) = 5 ∧ s.input.head? = some .never ∧ exec i s = .fault .hostNeverAnswers)

/-- Whenever a step answers a next state: if that state is Faulted the step counter is unchanged, and otherwise it is one more
than before. (10_state.md R30, 60_exceptions.md R161) -/
def Obligations.StepCounterCountsCommittedSteps : Prop :=
  ∀ s t : State, step s = .next t →
    (t.mode.isFaulted = true → t.steps = s.steps) ∧ (t.mode.isFaulted = false → t.steps = s.steps + 1)

/-- Executing an instruction in two states that differ only in their step counts gives states that agree in every other
component, with the same number of steps added, except that one may be Halted where the other is running. So a fault, its
reason and its pc are the same in both. (10_state.md R30, 10_state.md R46) -/
def Obligations.StepCountIsInvisibleToPrograms : Prop :=
  ∀ (i : Instr) (s t : State) (n : Nat), exec i s = .next t →
    ∃ (m : Mode) (k : Nat), exec i { s with steps := n } = .next { t with steps := k, mode := m } ∧
      k + s.steps = t.steps + n ∧
      (m = t.mode ∨ (m = .halted ∧ t.mode.isRunning = true) ∨ (t.mode = .halted ∧ m.isRunning = true))

/-- Whenever a step commits and its step count equals N, the machine is Halted, whatever the next pc would have been, with exit
status 0. From a state that meets the invariant, a committed step never makes the step count exceed N. (R46) -/
def Obligations.StepBoundHaltsTheMachine : Prop :=
  (∀ s t : State, step s = .next t → t.mode.isFaulted = false → t.steps = t.imem.length →
    t.mode = .halted ∧ t.mode.exitStatus = some 0) ∧
  (∀ s t : State, s.Inv → step s = .next t → t.steps ≤ t.imem.length)

/-- At index N - 1, an instruction other than j and a taken branch that answers a next state which is not Faulted leaves the
machine Halted, with its effects committed and the step counted: it is, but for the engine state, the state that the same
instruction commits from any index that is not N - 1. (R42) -/
def Obligations.SequentialFallOffHalts : Prop :=
  ∀ (i : Instr) (s t : State) (pc : Nat), s.mode = .running pc → pc + 1 = s.imem.length → exec i s = .next t →
    (∀ target, i ≠ .j target) → takesBranch i s = false → t.mode.isFaulted = false →
    t.mode = .halted ∧ t.steps = s.steps + 1 ∧
      ∀ (p : Nat) (u : State), p + 1 ≠ s.imem.length → exec i { s with mode := .running p } = .next u →
        u.mode.isFaulted = false → t = { u with mode := .halted }

/-- Whenever exec of an instruction at pc leaves the machine running, the new pc is pc + 1 for an instruction that is neither j
nor a taken branch, the unsigned target for j, and pc plus the signed displacement for a taken branch. (10_state.md R40,
10_state.md R41, 10_state.md R43, 10_state.md R44, 10_state.md R45, 43_control.md R143) -/
def Obligations.NextPcIsSequentialOrTheTarget : Prop :=
  ∀ (i : Instr) (s t : State) (pc p : Nat), s.mode = .running pc → exec i s = .next t → t.mode = .running p →
    match i with
    | .j target => p = target.toNat
    | .beq rs rt imm => if s.readReg rs = s.readReg rt then (p : Int) = pc + imm.toInt else p = pc + 1
    | .bne rs rt imm => if s.readReg rs = s.readReg rt then p = pc + 1 else (p : Int) = pc + imm.toInt
    | _ => p = pc + 1

/-- Whenever a step answers a next state, the instruction store, the size of data memory and the configuration are those before
the step: no store reaches the program. (10_state.md R31, 20_memory.md R70, 70_reset_and_hazards.md R185, 00_scope.md R6) -/
def Obligations.ProgramAndParametersNeverChange : Prop :=
  ∀ s t : State, step s = .next t → t.imem = s.imem ∧ t.dmem.size = s.dmem.size ∧ t.config = s.config

/-- Whenever exec of any of the sixteen instructions answers a next state, every general register other than its destination
register (x[2] for syscall with code 5; none for mult, div, j, beq, bne, sw and the other syscalls) reads as before.
(10_state.md R25, 10_state.md R36, 30_encoding.md R90, 40_syscall.md R110) -/
def Obligations.GeneralRegisterFrame : Prop :=
  ∀ (i : Instr) (s t : State), exec i s = .next t →
    ∀ r : Reg, (destinationOf i ≠ some r ∨ (i = .syscall ∧ sint (s.readReg 2) ≠ 5)) → t.readReg r = s.readReg r

/-- Whenever exec of an instruction other than mult and div answers a next state, HI and LO are unchanged. For an instruction
other than mfhi and mflo, executing it with other values in HI and LO gives the same outcome: the very same state, HI and LO
included, where a mult or div commits, and otherwise the same state but for HI and LO, which keep those other values. After
a load that does not fault, HI and LO hold 0 (so mfhi and mflo read 0 before any mult or div). (R24) -/
def Obligations.AccumulatorsBelongToMultAndDiv : Prop :=
  (∀ (i : Instr) (s t : State), exec i s = .next t → (∀ rs rt, i ≠ .mult rs rt) → (∀ rs rt, i ≠ .div rs rt) →
    t.hi = s.hi ∧ t.lo = s.lo) ∧
  (∀ (i : Instr) (s t : State) (h l : Word), exec i s = .next t → (∃ rs rt, i = .mult rs rt ∨ i = .div rs rt) →
    t.mode.isFaulted = false → exec i { s with hi := h, lo := l } = .next t) ∧
  (∀ (i : Instr) (s t : State) (h l : Word), exec i s = .next t → (∀ rd, i ≠ .mfhi rd) → (∀ rd, i ≠ .mflo rd) →
    ((∀ rs rt, i ≠ .mult rs rt ∧ i ≠ .div rs rt) ∨ t.mode.isFaulted = true) →
    exec i { s with hi := h, lo := l } = .next { t with hi := h, lo := l }) ∧
  (∀ (l : Launch) (t : State), load l = .next t → t.mode.isFaulted = false → t.hi = 0 ∧ t.lo = 0)

/-- Whenever exec of an instruction answers a next state: for every data index k that is not the effective index the instruction
stores to, reading k gives what it gave before. For an instruction that stores nothing, that is every index; for sw, every
index but the one its meaning computes. (20_memory.md R60, 20_memory.md R63, 20_memory.md R67, 44_loadstore.md R151) -/
def Obligations.DataMemoryFrame : Prop :=
  ∀ (i : Instr) (s t : State), exec i s = .next t →
    ∀ k : Nat, storeIndexOf i s ≠ some (k : Int) → t.dmem.read k = s.dmem.read k

/-- Whenever exec of an instruction answers a next state: either the output stream is unchanged, or the instruction is syscall
with code 1 and exactly sint($a0) was appended; and either the host's answers and the count of draws are unchanged, or the
instruction is syscall with code 5 and one answer was taken. How draws are held is the model's choice, log entry 5.
(10_state.md R33, 10_state.md R36, 40_syscall.md R111, 92_eei_decisions.md D15) -/
def Obligations.OutputAndInputFrame : Prop :=
  ∀ (i : Instr) (s t : State), exec i s = .next t →
    (t.out = s.out ∨ (i = .syscall ∧ sint (s.readReg 2) = 1 ∧ t.out = s.out ++ [sint (s.readReg 4)])) ∧
    ((t.input = s.input ∧ t.drawn = s.drawn) ∨
      (i = .syscall ∧ sint (s.readReg 2) = 5 ∧ t.input = s.input.tail ∧ t.drawn = s.drawn + 1))

/-- Whenever exec of an instruction answers a next state that is not Faulted, there are inputs of the register file (at most one
of the general write port and the accumulator write enabled, the general port not aimed at register 0) whose commit gives
exactly the general registers, HI and LO of that state; and a commit aimed at register 0 always signals ZeroRegisterWrite.
Port names are D20. (10_state.md R25, 10_state.md R23, 92_eei_decisions.md D20) -/
def Obligations.OneRegisterFileCommitPerStep : Prop :=
  (∀ (i : Instr) (s t : State), exec i s = .next t → t.mode.isFaulted = false →
    ∃ (inputs : RegFileInputs) (u : State), s.regFileCommit inputs = .ok u ∧ ¬(inputs.wEn = true ∧ inputs.accWe = true) ∧
      (inputs.wEn = true → inputs.wIdx ≠ 0) ∧ t.x = u.x ∧ t.hi = u.hi ∧ t.lo = u.lo) ∧
  (∀ (s : State) (inputs : RegFileInputs), inputs.wEn = true → inputs.wIdx = 0 →
    s.regFileCommit inputs = .error .zeroRegisterWrite)

/-- State.reset meets the invariant (x[0] stores 0, data memory in canonical form, engine state in range, launch bounds, emitted
values signed 32-bit), and so does every state that a load answers, a decode fault included. What a machine that faulted at
load holds beside its engine state and step count is the model's choice, log entry 12. (70_reset_and_hazards.md R180,
70_reset_and_hazards.md R181, 30_encoding.md R94) -/
def Obligations.InvariantHoldsAfterEveryLoad : Prop :=
  State.reset.Inv ∧ ∀ (l : Launch) (t : State), load l = .next t → t.Inv

/-- If a state meets the invariant and the step answers a next state, that state meets it: x[0] stores 0, the pc of a running
machine is below N with steps left, a faulted machine stopped at a pc of the program and never for malformed text, data
memory is in canonical form inside [0, M), the launch bounds hold and every emitted value is a signed 32-bit value.
(10_state.md R22, 10_state.md R27, 10_state.md R28, 10_state.md R46, 20_memory.md R60, 60_exceptions.md R160) -/
def Obligations.EveryStepKeepsTheInvariant : Prop :=
  ∀ s t : State, s.Inv → step s = .next t → t.Inv

/-- From every state that meets the invariant, within N - steps steps the machine reaches a state that has no step: it is
Halted, or Faulted, or it is waiting for a host that never answers (D15, log entry 5). So there is no infinite execution.
(10_state.md R46, 10_state.md R47, 70_reset_and_hazards.md R186, 92_eei_decisions.md D15) -/
def Obligations.EveryRunEndsWithinTheStepLimit : Prop :=
  ∀ s : State, s.Inv → ∃ (k : Nat) (t : State), k ≤ s.imem.length - s.steps ∧ Sys2Proof.core.run k s = .next t ∧
    (t.mode = .halted ∨ t.mode.isFaulted = true ∨ step t = .fault .hostNeverAnswers)

/-- A Halted machine has exit status 0, a Faulted one has an exit status that is not 0, whatever EXIT_FAULT_STATUS is, and a
running one has none; the observation of a run exists exactly when the machine is not running. (10_state.md R35,
92_eei_decisions.md D19) -/
def Obligations.ExitStatusTellsFaultsApart : Prop :=
  Mode.halted.exitStatus = some 0 ∧
  (∀ reason location, ∃ n, (Mode.faulted reason location).exitStatus = some n ∧ n ≠ 0) ∧
  (∀ pc, (Mode.running pc).exitStatus = none) ∧
  (∀ s : State, s.observe.isSome = true ↔ s.mode.isRunning = false)

/-- For every load that does not fault, the load record holds the decoded listing and exactly the launch's data words. Whenever
a step answers a state that is not Faulted, its record holds the instruction fetched at the pc and the register and data
snapshots of the state after the step; a faulting step gives no record, which is the model's choice within D27 (log entry
10). The register snapshot of a state has the 34 entries: what reading each of the 32 general registers gives, in index
order, and HI and LO; its data snapshot has M entries, of which entry k is DMEM[k]. (10_state.md R34, 60_exceptions.md R171,
10_state.md R25, 92_eei_decisions.md D27) -/
def Obligations.TraceShowsTheCommittedStep : Prop :=
  (∀ (l : Launch) (t : State), load l = .next t → t.mode.isFaulted = false →
    loadTrace t = some (.loaded t.imem l.data)) ∧
  (∀ (s t : State) (pc : Nat), s.mode = .running pc → step s = .next t →
    (t.mode.isFaulted = false → ∃ i, s.imem[pc]? = some i ∧ stepTrace s = some (.stepped i t.snapshot t.dmem.words)) ∧
    (t.mode.isFaulted = true → stepTrace s = none)) ∧
  (∀ s : State, s.snapshot.x.length = 32 ∧ (∀ r : Reg, s.snapshot.x[r.toNat]? = some (s.readReg r)) ∧
    s.snapshot.hi = s.hi ∧ s.snapshot.lo = s.lo ∧
    s.dmem.words.length = s.dmem.size ∧ ∀ k, k < s.dmem.size → s.dmem.words[k]? = some (s.dmem.read k))

/-- An observation holds the terminal state and its exit status. It holds no register, memory or output state exactly when the
run ended in Faulted(DecodeError, k). Otherwise it holds the output stream, what reading each of the 32 general registers
gives, HI and LO, and the M data words in order. (10_state.md R47, 10_state.md R35, 70_reset_and_hazards.md R180) -/
def Obligations.ObservationHoldsTheFinalState : Prop :=
  ∀ (s : State) (o : Observation), s.observe = some o →
    o.terminal = s.mode ∧ s.mode.exitStatus = some o.exitStatus ∧
    (o.result = none ↔ ∃ k, s.mode = .faulted .decodeError k) ∧
    (∀ r, o.result = some r →
      r.out = s.out ∧ r.registers.hi = s.hi ∧ r.registers.lo = s.lo ∧
      r.registers.x.length = 32 ∧ (∀ q : Reg, r.registers.x[q.toNat]? = some (s.readReg q)) ∧
      r.data.length = s.dmem.size ∧ ∀ k, k < s.dmem.size → r.data[k]? = some (s.dmem.read k))

/-- For every launch that loads without a fault, the state has the launch's configuration (CHECK_UNTAKEN_BRANCH_TARGET), its
list of host answers fixed beforehand, and no answer taken yet. That these stand in the state, and that the count of draws
begins at 0, is the model's choice, log entries 5 and 6. (00_scope.md R6, 10_state.md R33, 92_eei_decisions.md D9,
92_eei_decisions.md D15) -/
def Obligations.LoadCarriesTheParametersAndAnswers : Prop :=
  ∀ (l : Launch) (t : State), load l = .next t → t.mode.isFaulted = false →
    t.config = l.config ∧ t.input = l.input ∧ t.drawn = 0
end

