-- ==== Sys2Proof/Laws/Decode.lean ====
section
/-! SUPPORT. The fields of an encoded word, format by format, and the whole-program decode (30_encoding.md R81, R82, R94). -/

namespace Sys2Proof

/-! ## The fields of the three formats -/

variable (rs rt rd shamt : BitVec 5) (funct opcode : BitVec 6) (imm : Imm16) (target : Target26)

@[simp] theorem opcodeOf_register : opcodeOf (encodeRegisterFormat rs rt rd shamt funct) = 0 := by
  apply BitVec.eq_of_getLsbD_eq
  intro i hi
  simp only [opcodeOf, encodeRegisterFormat, BitVec.getLsbD_cast, BitVec.getLsbD_extractLsb', BitVec.getLsbD_append, hi]
  interval_cases i <;> simp

@[simp] theorem rsOf_register : rsOf (encodeRegisterFormat rs rt rd shamt funct) = rs := by
  apply BitVec.eq_of_getLsbD_eq
  intro i hi
  simp only [rsOf, encodeRegisterFormat, BitVec.getLsbD_cast, BitVec.getLsbD_extractLsb', BitVec.getLsbD_append, hi]
  interval_cases i <;> simp

@[simp] theorem rtOf_register : rtOf (encodeRegisterFormat rs rt rd shamt funct) = rt := by
  apply BitVec.eq_of_getLsbD_eq
  intro i hi
  simp only [rtOf, encodeRegisterFormat, BitVec.getLsbD_cast, BitVec.getLsbD_extractLsb', BitVec.getLsbD_append, hi]
  interval_cases i <;> simp

@[simp] theorem rdOf_register : rdOf (encodeRegisterFormat rs rt rd shamt funct) = rd := by
  apply BitVec.eq_of_getLsbD_eq
  intro i hi
  simp only [rdOf, encodeRegisterFormat, BitVec.getLsbD_cast, BitVec.getLsbD_extractLsb', BitVec.getLsbD_append, hi]
  interval_cases i <;> simp

@[simp] theorem shamtOf_register : shamtOf (encodeRegisterFormat rs rt rd shamt funct) = shamt := by
  apply BitVec.eq_of_getLsbD_eq
  intro i hi
  simp only [shamtOf, encodeRegisterFormat, BitVec.getLsbD_cast, BitVec.getLsbD_extractLsb', BitVec.getLsbD_append, hi]
  interval_cases i <;> simp

@[simp] theorem functOf_register : functOf (encodeRegisterFormat rs rt rd shamt funct) = funct := by
  apply BitVec.eq_of_getLsbD_eq
  intro i hi
  simp only [functOf, encodeRegisterFormat, BitVec.getLsbD_cast, BitVec.getLsbD_extractLsb', BitVec.getLsbD_append, hi]
  interval_cases i <;> simp

@[simp] theorem opcodeOf_immediate : opcodeOf (encodeImmediateFormat opcode rs rt imm) = opcode := by
  apply BitVec.eq_of_getLsbD_eq
  intro i hi
  simp only [opcodeOf, encodeImmediateFormat, BitVec.getLsbD_cast, BitVec.getLsbD_extractLsb', BitVec.getLsbD_append, hi]
  interval_cases i <;> simp

@[simp] theorem rsOf_immediate : rsOf (encodeImmediateFormat opcode rs rt imm) = rs := by
  apply BitVec.eq_of_getLsbD_eq
  intro i hi
  simp only [rsOf, encodeImmediateFormat, BitVec.getLsbD_cast, BitVec.getLsbD_extractLsb', BitVec.getLsbD_append, hi]
  interval_cases i <;> simp

@[simp] theorem rtOf_immediate : rtOf (encodeImmediateFormat opcode rs rt imm) = rt := by
  apply BitVec.eq_of_getLsbD_eq
  intro i hi
  simp only [rtOf, encodeImmediateFormat, BitVec.getLsbD_cast, BitVec.getLsbD_extractLsb', BitVec.getLsbD_append, hi]
  interval_cases i <;> simp

@[simp] theorem immOf_immediate : immOf (encodeImmediateFormat opcode rs rt imm) = imm := by
  apply BitVec.eq_of_getLsbD_eq
  intro i hi
  simp only [immOf, encodeImmediateFormat, BitVec.getLsbD_cast, BitVec.getLsbD_extractLsb', BitVec.getLsbD_append, hi]
  interval_cases i <;> simp

@[simp] theorem opcodeOf_jump : opcodeOf (encodeJumpFormat target) = 2 := by
  apply BitVec.eq_of_getLsbD_eq
  intro i hi
  simp only [opcodeOf, encodeJumpFormat, BitVec.getLsbD_cast, BitVec.getLsbD_extractLsb', BitVec.getLsbD_append, hi]
  interval_cases i <;> simp

@[simp] theorem targetOf_jump : targetOf (encodeJumpFormat target) = target := by
  apply BitVec.eq_of_getLsbD_eq
  intro i hi
  simp only [targetOf, encodeJumpFormat, BitVec.getLsbD_cast, BitVec.getLsbD_extractLsb', BitVec.getLsbD_append, hi]
  interval_cases i <;> simp

/-! ## A word is its fields -/

/-- Two words with the same fields of the R-format are the same word. -/
theorem eq_of_register_fields {v w : Word} (ho : opcodeOf v = opcodeOf w) (hs : rsOf v = rsOf w) (ht : rtOf v = rtOf w)
    (hd : rdOf v = rdOf w) (ha : shamtOf v = shamtOf w) (hf : functOf v = functOf w) : v = w := by
  apply BitVec.eq_of_getLsbD_eq
  intro i hi
  have bit : ∀ {n k : Nat} {f : Word → BitVec n}, (∀ u, f u = u.extractLsb' k n) → f v = f w → ∀ j, j < n →
      v.getLsbD (k + j) = w.getLsbD (k + j) := by
    intro n k f hf h j hj
    have := congrArg (fun b => b.getLsbD j) h
    simpa [hf, hj] using this
  by_cases h1 : i < 6
  · simpa using bit (fun _ => rfl) hf i h1
  by_cases h2 : i < 11
  · simpa [show 6 + (i - 6) = i by omega] using bit (fun _ => rfl) ha (i - 6) (by omega)
  by_cases h3 : i < 16
  · simpa [show 11 + (i - 11) = i by omega] using bit (fun _ => rfl) hd (i - 11) (by omega)
  by_cases h4 : i < 21
  · simpa [show 16 + (i - 16) = i by omega] using bit (fun _ => rfl) ht (i - 16) (by omega)
  by_cases h5 : i < 26
  · simpa [show 21 + (i - 21) = i by omega] using bit (fun _ => rfl) hs (i - 21) (by omega)
  · simpa [show 26 + (i - 26) = i by omega] using bit (fun _ => rfl) ho (i - 26) (by omega)

/-- An R-format word is the encoding of its fields. -/
theorem encodeRegisterFormat_fields {w : Word} (h : opcodeOf w = 0) :
    encodeRegisterFormat (rsOf w) (rtOf w) (rdOf w) (shamtOf w) (functOf w) = w :=
  eq_of_register_fields (by simp [h]) (by simp) (by simp) (by simp) (by simp) (by simp)

/-- A word is the I-format encoding of its fields. -/
theorem encodeImmediateFormat_fields (w : Word) : encodeImmediateFormat (opcodeOf w) (rsOf w) (rtOf w) (immOf w) = w := by
  apply BitVec.eq_of_getLsbD_eq
  intro i hi
  simp only [encodeImmediateFormat, opcodeOf, rsOf, rtOf, immOf, BitVec.getLsbD_cast, BitVec.getLsbD_append,
    BitVec.getLsbD_extractLsb']
  interval_cases i <;> simp

/-- A J-format word is the encoding of its target. -/
theorem encodeJumpFormat_fields {w : Word} (h : opcodeOf w = 2) : encodeJumpFormat (targetOf w) = w := by
  have h' : opcodeOf w = 2#6 := h
  apply BitVec.eq_of_getLsbD_eq
  intro i hi
  rw [encodeJumpFormat, ← h']
  simp only [opcodeOf, targetOf, BitVec.getLsbD_cast, BitVec.getLsbD_append, BitVec.getLsbD_extractLsb']
  interval_cases i <;> simp

/-! ## The formats as the rules write their words -/

/-- An R-format word with `shamt` zero, as `rs << 21 | rt << 16 | rd << 11 | funct` (41_muldiv.md R122, 42_alu.md R130). -/
theorem encodeRegisterFormat_eq : encodeRegisterFormat rs rt rd 0 funct =
    fieldAt rs 21 ||| fieldAt rt 16 ||| fieldAt rd 11 ||| fieldAt funct 0 := by
  apply BitVec.eq_of_getLsbD_eq
  intro i hi
  simp only [encodeRegisterFormat, fieldAt, BitVec.getLsbD_cast, BitVec.getLsbD_append, BitVec.getLsbD_or,
    BitVec.getLsbD_shiftLeft, BitVec.getLsbD_setWidth]
  interval_cases i <;> simp

/-- An I-format word, as `opcode << 26 | rs << 21 | rt << 16 | imm` (42_alu.md R135). -/
theorem encodeImmediateFormat_eq : encodeImmediateFormat opcode rs rt imm =
    fieldAt opcode 26 ||| fieldAt rs 21 ||| fieldAt rt 16 ||| fieldAt imm 0 := by
  apply BitVec.eq_of_getLsbD_eq
  intro i hi
  simp only [encodeImmediateFormat, fieldAt, BitVec.getLsbD_cast, BitVec.getLsbD_append, BitVec.getLsbD_or,
    BitVec.getLsbD_shiftLeft, BitVec.getLsbD_setWidth]
  interval_cases i <;> simp

/-- The J-format word, as `2 << 26 | target` (43_control.md R140). -/
theorem encodeJumpFormat_eq : encodeJumpFormat target = fieldAt 2#6 26 ||| fieldAt target 0 := by
  apply BitVec.eq_of_getLsbD_eq
  intro i hi
  simp only [encodeJumpFormat, fieldAt, BitVec.getLsbD_cast, BitVec.getLsbD_append, BitVec.getLsbD_or,
    BitVec.getLsbD_shiftLeft, BitVec.getLsbD_setWidth]
  interval_cases i <;> simp

/-! ## Masked words -/

/-- A field of a masked word: the field, masked. -/
theorem extract_mask (w m : Word) (k n : Nat) :
    (w &&& m).extractLsb' k n = w.extractLsb' k n &&& m.extractLsb' k n := by
  apply BitVec.eq_of_getLsbD_eq
  intro i hi
  simp [hi]

@[simp] theorem opcodeOf_and (w m : Word) : opcodeOf (w &&& m) = opcodeOf w &&& opcodeOf m := extract_mask w m 26 6
@[simp] theorem rsOf_and (w m : Word) : rsOf (w &&& m) = rsOf w &&& rsOf m := extract_mask w m 21 5
@[simp] theorem rtOf_and (w m : Word) : rtOf (w &&& m) = rtOf w &&& rtOf m := extract_mask w m 16 5
@[simp] theorem rdOf_and (w m : Word) : rdOf (w &&& m) = rdOf w &&& rdOf m := extract_mask w m 11 5
@[simp] theorem shamtOf_and (w m : Word) : shamtOf (w &&& m) = shamtOf w &&& shamtOf m := extract_mask w m 6 5
@[simp] theorem functOf_and (w m : Word) : functOf (w &&& m) = functOf w &&& functOf m := extract_mask w m 0 6

/-- A masked R-format word whose mask keeps the function code and clears `shamt`, field by field. -/
theorem register_mask {w m : Word} (ho : opcodeOf w = 0) (hf : functOf m = 63) (hs : shamtOf m = 0) :
    w &&& m = encodeRegisterFormat (rsOf w &&& rsOf m) (rtOf w &&& rtOf m) (rdOf w &&& rdOf m) 0 (functOf w) := by
  have all : functOf w &&& 63#6 = functOf w := BitVec.and_allOnes
  apply eq_of_register_fields
  · simp [ho]
  · simp
  · simp
  · simp
  · simp [hs]
  · rw [functOf_and, hf, functOf_register]
    exact all

/-! ## The whole-program decode -/

/-- A program that decodes gives an instruction for each word, in order (R94, 10_state.md R31). -/
theorem decodeProgramFrom_ok :
    ∀ {k : Nat} {program : List Word} {imem : List Instr}, decodeProgramFrom k program = .ok imem →
      imem.length = program.length ∧
      ∀ j (h : j < program.length) (h' : j < imem.length), decode program[j] = .ok imem[j]
  | _, [], imem, h => by
    cases h
    simp
  | k, w :: rest, imem, h => by
    rw [decodeProgramFrom] at h
    split at h
    · cases h
    · rename_i i hw
      split at h
      · cases h
      · rename_i tail hr
        cases h
        obtain ⟨hl, ht⟩ := decodeProgramFrom_ok hr
        refine ⟨by simp [hl], fun j h h' => ?_⟩
        cases j with
        | zero => simpa using hw
        | succ j => simpa using ht j (by simpa using h) (by simpa using h')

/-- A program that does not decode gives the position of its first illegal word (R94). -/
theorem decodeProgramFrom_error :
    ∀ {k p : Nat} {program : List Word} {e : DecodeError}, decodeProgramFrom k program = .error (p, e) →
      ∃ j, ∃ h : j < program.length, p = k + j ∧ decode program[j] = .error e ∧
        ∀ j' (h' : j' < j), ∃ i, decode (program[j']'(h'.trans h)) = .ok i
  | _, _, [], _, h => by cases h
  | k, p, w :: rest, e, h => by
    rw [decodeProgramFrom] at h
    split at h
    · rename_i e' hw
      cases h
      exact ⟨0, by simp, rfl, by simpa using hw, fun _ h' => absurd h' (Nat.not_lt_zero _)⟩
    · rename_i i hw
      split at h
      · rename_i e' hr
        cases h
        obtain ⟨j, hj, hp, he, hlt⟩ := decodeProgramFrom_error hr
        refine ⟨j + 1, by simpa using hj, by omega, by simpa using he, fun j' h' => ?_⟩
        cases j' with
        | zero => exact ⟨i, by simpa using hw⟩
        | succ j' => simpa using hlt j' (by omega)
      · cases h

end Sys2Proof
end

