-- ==== Sys2Proof/Laws/Memory.lean ====
section
/-! SUPPORT. The laws of data memory: a read after a write to the same index gives the word written, a write leaves every other
index alone, the words of a launch are read back, and every operation keeps the canonical form. -/

namespace Sys2Proof.Machine

/-! ## Reads -/

/-- In canonical form nothing is listed below the lower bound. -/
theorem cellsRead_below {low size k : Nat} :
    ∀ {cells : List (Nat × Word)}, cellsWf low size cells = true → k < low → cellsRead cells k = Memory.unlisted
  | [], _, _ => rfl
  | (a, v) :: rest, h, hk => by
    simp only [cellsWf, Bool.and_eq_true, decide_eq_true_eq] at h
    obtain ⟨⟨⟨ha, -⟩, -⟩, hr⟩ := h
    rw [cellsRead, if_neg (by omega), cellsRead_below hr (by omega)]

theorem cellsRead_write_same {size k : Nat} {v : Word} :
    ∀ {low : Nat} {cells : List (Nat × Word)}, cellsWf low size cells = true → cellsRead (cellsWrite cells k v) k = v
  | _, [], _ => by
    by_cases hv : v = Memory.unlisted <;> simp [cellsWrite, cellsRead, hv]
  | low, (a, u) :: rest, h => by
    simp only [cellsWf, Bool.and_eq_true, decide_eq_true_eq] at h
    obtain ⟨⟨⟨-, -⟩, -⟩, hr⟩ := h
    simp only [cellsWrite]
    split
    · rename_i hlt
      rw [cellsRead, if_neg (by omega), cellsRead_write_same hr]
    · split
      · split
        · rename_i hak hv
          rw [cellsRead_below hr (by omega), hv]
        · simp [cellsRead]
      · rename_i hlt hne
        split
        · rename_i hv
          rw [cellsRead, if_neg hne, cellsRead_below hr (by omega), hv]
        · simp [cellsRead]

theorem cellsRead_write_other {k k' : Nat} {v : Word} (hne : k ≠ k') :
    ∀ cells : List (Nat × Word), cellsRead (cellsWrite cells k v) k' = cellsRead cells k'
  | [] => by by_cases hv : v = Memory.unlisted <;> simp [cellsWrite, cellsRead, hv, hne]
  | (a, u) :: rest => by
    simp only [cellsWrite]
    split
    · simp only [cellsRead, cellsRead_write_other hne rest]
    · split
      · rename_i hak
        split
        · rw [cellsRead, if_neg (by omega)]
        · simp only [cellsRead, if_neg hne, if_neg (show a ≠ k' by omega)]
      · split
        · rfl
        · simp only [cellsRead, if_neg hne]

/-- A read after a write to the same index gives the word written (20_memory.md R68). -/
theorem Memory.read_write_same {m : Memory} (h : m.wf = true) (k : Nat) (v : Word) : (m.write k v).read k = v :=
  cellsRead_write_same h

/-- A write leaves every other index alone (R63). -/
theorem Memory.read_write_other (m : Memory) {k k' : Nat} (v : Word) (h : k ≠ k') : (m.write k v).read k' = m.read k' :=
  cellsRead_write_other h m.cells

@[simp] theorem Memory.write_size (m : Memory) (k : Nat) (v : Word) : (m.write k v).size = m.size := rfl

/-! ## The canonical form -/

theorem cellsWf_weaken {low low' size : Nat} {cells : List (Nat × Word)} (h : cellsWf low' size cells = true)
    (hle : low ≤ low') : cellsWf low size cells = true := by
  cases cells with
  | nil => rfl
  | cons c cs =>
    simp only [cellsWf, Bool.and_eq_true, decide_eq_true_eq] at h ⊢
    exact ⟨⟨⟨by omega, h.1.1.2⟩, h.1.2⟩, h.2⟩

theorem cellsWf_write {size k : Nat} {v : Word} (hk : k < size) :
    ∀ {low : Nat} {cells : List (Nat × Word)}, cellsWf low size cells = true → low ≤ k →
      cellsWf low size (cellsWrite cells k v) = true
  | low, [], _, hl => by
    by_cases hv : v = Memory.unlisted <;> simp [cellsWrite, cellsWf, hv, hk, hl]
  | low, (a, u) :: rest, h, hl => by
    simp only [cellsWf, Bool.and_eq_true, decide_eq_true_eq] at h
    obtain ⟨⟨⟨ha, hs⟩, hu⟩, hr⟩ := h
    simp only [cellsWrite]
    split
    · rename_i hlt
      simp [cellsWf, ha, hs, hu, cellsWf_write hk hr (by omega)]
    · split
      · rename_i hak
        split
        · exact cellsWf_weaken hr (by omega)
        · rename_i hv
          subst hak
          simp [cellsWf, hl, hk, hv, hr]
      · split
        · simp [cellsWf, ha, hs, hu, hr]
        · rename_i hv
          simp only [cellsWf, Bool.and_eq_true, decide_eq_true_eq]
          exact ⟨⟨⟨hl, hk⟩, hv⟩, ⟨⟨by omega, hs⟩, hu⟩, hr⟩

/-- A write in range keeps the canonical form. -/
theorem Memory.write_wf {m : Memory} (h : m.wf = true) {k : Nat} (hk : k < m.size) (v : Word) :
    (m.write k v).wf = true :=
  cellsWf_write hk h (Nat.zero_le k)

theorem cellsOfWords_wf :
    ∀ (k size : Nat) (data : List Word), k + data.length ≤ size → cellsWf k size (cellsOfWords k data) = true
  | _, _, [], _ => rfl
  | k, size, v :: rest, h => by
    simp only [List.length_cons] at h
    have ih := cellsOfWords_wf (k + 1) size rest (by omega)
    simp only [cellsOfWords]
    split
    · exact cellsWf_weaken ih (by omega)
    · rename_i hv
      simp [cellsWf, hv, ih]
      omega

/-- The memory of a launch is in canonical form. -/
theorem Memory.ofWords_wf (data : List Word) : (Memory.ofWords data).wf = true :=
  cellsOfWords_wf 0 data.length data (by omega)

theorem cellsRead_ofWords :
    ∀ (k : Nat) (data : List Word) (j : Nat) (hj : j < data.length), cellsRead (cellsOfWords k data) (k + j) = data[j]
  | k, v :: rest, 0, _ => by
    simp only [cellsOfWords]
    split
    · rename_i hv
      rw [cellsRead_below (cellsOfWords_wf (k + 1) (k + 1 + rest.length) rest (by omega)) (by omega)]
      simp [hv]
    · simp [cellsRead]
  | k, v :: rest, j + 1, hj => by
    have hj' : j < rest.length := by simpa using hj
    have ih := cellsRead_ofWords (k + 1) rest j hj'
    rw [show k + 1 + j = k + (j + 1) by omega] at ih
    simp only [cellsOfWords, List.getElem_cons_succ]
    split
    · exact ih
    · rw [cellsRead, if_neg (by omega), ih]

/-- The words of a launch are read back: `DMEM[k] = DATA_INIT[k]` (R73). -/
theorem Memory.read_ofWords (data : List Word) (k : Nat) (hk : k < data.length) : (Memory.ofWords data).read k = data[k] := by
  simpa [Memory.read, Memory.ofWords] using cellsRead_ofWords 0 data k hk

@[simp] theorem Memory.ofWords_size (data : List Word) : (Memory.ofWords data).size = data.length := rfl

end Sys2Proof.Machine
end

