-- ==== Sys2Proof/Laws/State.lean ====
section
/-! SUPPORT. One lemma per field per update of the state, so that no proof unfolds a record update. -/

namespace Sys2Proof.Machine

variable (s : State)

/-! ### `State.setX` -/

@[simp] theorem State.setX_config (r : Reg) (v : Word) : (s.setX r v).config = s.config := rfl
@[simp] theorem State.setX_x (r : Reg) (v : Word) : (s.setX r v).x = s.x.set r.toNat v r.isLt := rfl
@[simp] theorem State.setX_hi (r : Reg) (v : Word) : (s.setX r v).hi = s.hi := rfl
@[simp] theorem State.setX_lo (r : Reg) (v : Word) : (s.setX r v).lo = s.lo := rfl
@[simp] theorem State.setX_mode (r : Reg) (v : Word) : (s.setX r v).mode = s.mode := rfl
@[simp] theorem State.setX_steps (r : Reg) (v : Word) : (s.setX r v).steps = s.steps := rfl
@[simp] theorem State.setX_imem (r : Reg) (v : Word) : (s.setX r v).imem = s.imem := rfl
@[simp] theorem State.setX_dmem (r : Reg) (v : Word) : (s.setX r v).dmem = s.dmem := rfl
@[simp] theorem State.setX_out (r : Reg) (v : Word) : (s.setX r v).out = s.out := rfl
@[simp] theorem State.setX_input (r : Reg) (v : Word) : (s.setX r v).input = s.input := rfl
@[simp] theorem State.setX_drawn (r : Reg) (v : Word) : (s.setX r v).drawn = s.drawn := rfl

/-! ### `State.setHiLo` -/

@[simp] theorem State.setHiLo_config (hi lo : Word) : (s.setHiLo hi lo).config = s.config := rfl
@[simp] theorem State.setHiLo_x (hi lo : Word) : (s.setHiLo hi lo).x = s.x := rfl
@[simp] theorem State.setHiLo_hi (hi lo : Word) : (s.setHiLo hi lo).hi = hi := rfl
@[simp] theorem State.setHiLo_lo (hi lo : Word) : (s.setHiLo hi lo).lo = lo := rfl
@[simp] theorem State.setHiLo_mode (hi lo : Word) : (s.setHiLo hi lo).mode = s.mode := rfl
@[simp] theorem State.setHiLo_steps (hi lo : Word) : (s.setHiLo hi lo).steps = s.steps := rfl
@[simp] theorem State.setHiLo_imem (hi lo : Word) : (s.setHiLo hi lo).imem = s.imem := rfl
@[simp] theorem State.setHiLo_dmem (hi lo : Word) : (s.setHiLo hi lo).dmem = s.dmem := rfl
@[simp] theorem State.setHiLo_out (hi lo : Word) : (s.setHiLo hi lo).out = s.out := rfl
@[simp] theorem State.setHiLo_input (hi lo : Word) : (s.setHiLo hi lo).input = s.input := rfl
@[simp] theorem State.setHiLo_drawn (hi lo : Word) : (s.setHiLo hi lo).drawn = s.drawn := rfl

/-! ### `State.setMode` -/

@[simp] theorem State.setMode_config (mode : Mode) : (s.setMode mode).config = s.config := rfl
@[simp] theorem State.setMode_x (mode : Mode) : (s.setMode mode).x = s.x := rfl
@[simp] theorem State.setMode_hi (mode : Mode) : (s.setMode mode).hi = s.hi := rfl
@[simp] theorem State.setMode_lo (mode : Mode) : (s.setMode mode).lo = s.lo := rfl
@[simp] theorem State.setMode_mode (mode : Mode) : (s.setMode mode).mode = mode := rfl
@[simp] theorem State.setMode_steps (mode : Mode) : (s.setMode mode).steps = s.steps := rfl
@[simp] theorem State.setMode_imem (mode : Mode) : (s.setMode mode).imem = s.imem := rfl
@[simp] theorem State.setMode_dmem (mode : Mode) : (s.setMode mode).dmem = s.dmem := rfl
@[simp] theorem State.setMode_out (mode : Mode) : (s.setMode mode).out = s.out := rfl
@[simp] theorem State.setMode_input (mode : Mode) : (s.setMode mode).input = s.input := rfl
@[simp] theorem State.setMode_drawn (mode : Mode) : (s.setMode mode).drawn = s.drawn := rfl

/-! ### `State.countStep` -/

@[simp] theorem State.countStep_config : (s.countStep).config = s.config := rfl
@[simp] theorem State.countStep_x : (s.countStep).x = s.x := rfl
@[simp] theorem State.countStep_hi : (s.countStep).hi = s.hi := rfl
@[simp] theorem State.countStep_lo : (s.countStep).lo = s.lo := rfl
@[simp] theorem State.countStep_mode : (s.countStep).mode = s.mode := rfl
@[simp] theorem State.countStep_steps : (s.countStep).steps = s.steps + 1 := rfl
@[simp] theorem State.countStep_imem : (s.countStep).imem = s.imem := rfl
@[simp] theorem State.countStep_dmem : (s.countStep).dmem = s.dmem := rfl
@[simp] theorem State.countStep_out : (s.countStep).out = s.out := rfl
@[simp] theorem State.countStep_input : (s.countStep).input = s.input := rfl
@[simp] theorem State.countStep_drawn : (s.countStep).drawn = s.drawn := rfl

/-! ### `State.setDmem` -/

@[simp] theorem State.setDmem_config (m : Memory) : (s.setDmem m).config = s.config := rfl
@[simp] theorem State.setDmem_x (m : Memory) : (s.setDmem m).x = s.x := rfl
@[simp] theorem State.setDmem_hi (m : Memory) : (s.setDmem m).hi = s.hi := rfl
@[simp] theorem State.setDmem_lo (m : Memory) : (s.setDmem m).lo = s.lo := rfl
@[simp] theorem State.setDmem_mode (m : Memory) : (s.setDmem m).mode = s.mode := rfl
@[simp] theorem State.setDmem_steps (m : Memory) : (s.setDmem m).steps = s.steps := rfl
@[simp] theorem State.setDmem_imem (m : Memory) : (s.setDmem m).imem = s.imem := rfl
@[simp] theorem State.setDmem_dmem (m : Memory) : (s.setDmem m).dmem = m := rfl
@[simp] theorem State.setDmem_out (m : Memory) : (s.setDmem m).out = s.out := rfl
@[simp] theorem State.setDmem_input (m : Memory) : (s.setDmem m).input = s.input := rfl
@[simp] theorem State.setDmem_drawn (m : Memory) : (s.setDmem m).drawn = s.drawn := rfl

/-! ### `State.emit` -/

@[simp] theorem State.emit_config (v : Int) : (s.emit v).config = s.config := rfl
@[simp] theorem State.emit_x (v : Int) : (s.emit v).x = s.x := rfl
@[simp] theorem State.emit_hi (v : Int) : (s.emit v).hi = s.hi := rfl
@[simp] theorem State.emit_lo (v : Int) : (s.emit v).lo = s.lo := rfl
@[simp] theorem State.emit_mode (v : Int) : (s.emit v).mode = s.mode := rfl
@[simp] theorem State.emit_steps (v : Int) : (s.emit v).steps = s.steps := rfl
@[simp] theorem State.emit_imem (v : Int) : (s.emit v).imem = s.imem := rfl
@[simp] theorem State.emit_dmem (v : Int) : (s.emit v).dmem = s.dmem := rfl
@[simp] theorem State.emit_out (v : Int) : (s.emit v).out = s.out ++ [v] := rfl
@[simp] theorem State.emit_input (v : Int) : (s.emit v).input = s.input := rfl
@[simp] theorem State.emit_drawn (v : Int) : (s.emit v).drawn = s.drawn := rfl

/-! ### `State.takeInput` -/

@[simp] theorem State.takeInput_config : (s.takeInput).config = s.config := rfl
@[simp] theorem State.takeInput_x : (s.takeInput).x = s.x := rfl
@[simp] theorem State.takeInput_hi : (s.takeInput).hi = s.hi := rfl
@[simp] theorem State.takeInput_lo : (s.takeInput).lo = s.lo := rfl
@[simp] theorem State.takeInput_mode : (s.takeInput).mode = s.mode := rfl
@[simp] theorem State.takeInput_steps : (s.takeInput).steps = s.steps := rfl
@[simp] theorem State.takeInput_imem : (s.takeInput).imem = s.imem := rfl
@[simp] theorem State.takeInput_dmem : (s.takeInput).dmem = s.dmem := rfl
@[simp] theorem State.takeInput_out : (s.takeInput).out = s.out := rfl
@[simp] theorem State.takeInput_input : (s.takeInput).input = s.input.tail := rfl
@[simp] theorem State.takeInput_drawn : (s.takeInput).drawn = s.drawn + 1 := rfl

/-! ### `State.enterFaulted` -/

@[simp] theorem State.enterFaulted_config (reason : FaultReason) (location : Nat) : (s.enterFaulted reason location).config = s.config := rfl
@[simp] theorem State.enterFaulted_x (reason : FaultReason) (location : Nat) : (s.enterFaulted reason location).x = s.x := rfl
@[simp] theorem State.enterFaulted_hi (reason : FaultReason) (location : Nat) : (s.enterFaulted reason location).hi = s.hi := rfl
@[simp] theorem State.enterFaulted_lo (reason : FaultReason) (location : Nat) : (s.enterFaulted reason location).lo = s.lo := rfl
@[simp] theorem State.enterFaulted_mode (reason : FaultReason) (location : Nat) : (s.enterFaulted reason location).mode = .faulted reason location := rfl
@[simp] theorem State.enterFaulted_steps (reason : FaultReason) (location : Nat) : (s.enterFaulted reason location).steps = s.steps := rfl
@[simp] theorem State.enterFaulted_imem (reason : FaultReason) (location : Nat) : (s.enterFaulted reason location).imem = s.imem := rfl
@[simp] theorem State.enterFaulted_dmem (reason : FaultReason) (location : Nat) : (s.enterFaulted reason location).dmem = s.dmem := rfl
@[simp] theorem State.enterFaulted_out (reason : FaultReason) (location : Nat) : (s.enterFaulted reason location).out = s.out := rfl
@[simp] theorem State.enterFaulted_input (reason : FaultReason) (location : Nat) : (s.enterFaulted reason location).input = s.input := rfl
@[simp] theorem State.enterFaulted_drawn (reason : FaultReason) (location : Nat) : (s.enterFaulted reason location).drawn = s.drawn := rfl

end Sys2Proof.Machine
end

