-- ==== Sys2Proof/Laws/Ops.lean ====
section
/-! SUPPORT. What each shared operation can do, said once: the register file, the data access, the host's input, the program
counter controller and the commit of a step. Later proofs cite these and unfold none of the operations. -/

namespace Sys2Proof.Machine

variable {s s' t : State} {r r' : Reg} {v : Word} {pc : Nat}

/-! ## The register file -/

@[simp] theorem State.readReg_zero (s : State) : s.readReg 0 = 0 := if_pos rfl

theorem State.readReg_of_ne (s : State) (h : r ≠ 0) : s.readReg r = s.x[r.toNat]'r.isLt := if_neg h

/-- The read port sees the general registers and nothing else. -/
theorem State.readReg_congr (h : s'.x = s.x) (r : Reg) : s'.readReg r = s.readReg r := by
  simp only [State.readReg, h]

theorem State.readReg_setX_same (s : State) (h : r ≠ 0) (v : Word) : (s.setX r v).readReg r = v := by
  simp [State.readReg_of_ne _ h]

theorem State.readReg_setX_other (s : State) (h : r' ≠ r) (v : Word) : (s.setX r v).readReg r' = s.readReg r' := by
  have hne : r.toNat ≠ r'.toNat := fun e => h (BitVec.eq_of_toNat_eq e.symm)
  simp [State.readReg, hne]

theorem State.writeReg_zero (s : State) (v : Word) : s.writeReg 0 v = .error .zeroRegisterWrite := if_pos rfl

theorem State.writeReg_of_ne (s : State) (h : r ≠ 0) (v : Word) : s.writeReg r v = .ok (s.setX r v) := if_neg h

/-- All the write port can do. -/
theorem State.writeReg_cases (s : State) (r : Reg) (v : Word) :
    (r = 0 ∧ s.writeReg r v = .error .zeroRegisterWrite) ∨ (r ≠ 0 ∧ s.writeReg r v = .ok (s.setX r v)) := by
  by_cases h : r = 0
  · exact .inl ⟨h, if_pos h⟩
  · exact .inr ⟨h, if_neg h⟩

/-! ## Ranges and data access -/

theorem inRange_iff {i : Int} {n : Nat} : inRange i n = true ↔ 0 ≤ i ∧ i < n := by simp [inRange]

theorem inRange_toNat_lt {i : Int} {n : Nat} (h : inRange i n = true) : i.toNat < n := by
  rw [inRange_iff] at h
  omega

/-- All a data read can do. -/
theorem State.loadWord_cases (s : State) (ei : Int) :
    (inRange ei s.dataCount = false ∧ s.loadWord ei = .error .invalidDataAddress) ∨
    (inRange ei s.dataCount = true ∧ s.loadWord ei = .ok (s.dmem.read ei.toNat)) := by
  cases h : inRange ei s.dataCount <;> simp [State.loadWord, h]

/-- All a data write can do. -/
theorem State.storeWord_cases (s : State) (ei : Int) (v : Word) :
    (inRange ei s.dataCount = false ∧ s.storeWord ei v = .error .invalidDataAddress) ∨
    (inRange ei s.dataCount = true ∧ s.storeWord ei v = .ok (s.setDmem (s.dmem.write ei.toNat v))) := by
  cases h : inRange ei s.dataCount <;> simp [State.storeWord, h]

/-- All a request to the host can do. -/
theorem State.drawInput_cases (s : State) :
    s.drawInput = none ∨ ∃ v, s.drawInput = some (v, s.takeInput) := by
  unfold State.drawInput
  split <;> simp

/-! ## The program counter controller -/

/-- From a pc of the program the controller answers only pcs of the program. -/
theorem pcController_next_lt {c : Bool} {n p : Nat} {ctl : Ctl} (hpc : pc < n) (h : pcController c n pc ctl = .next p) :
    p < n := by
  have seqCase : pcSequential n pc = .next p → p < n := by
    unfold pcSequential
    split
    · simp
    · intro h
      cases h
      omega
  cases ctl with
  | seq => exact seqCase h
  | halt => cases h
  | jump target =>
    simp only [pcController] at h
    split at h <;> cases h
    exact inRange_toNat_lt ‹_›
  | branchTaken target =>
    simp only [pcController] at h
    split at h <;> cases h
    exact inRange_toNat_lt ‹_›
  | branchUntaken target =>
    simp only [pcController] at h
    split at h
    · cases h
    · exact seqCase h

/-- The faults the controller can answer. -/
theorem pcController_fault {c : Bool} {n : Nat} {ctl : Ctl} {reason : FaultReason}
    (h : pcController c n pc ctl = .fault reason) :
    (∃ t, ctl = .jump t ∧ reason = .invalidJumpTarget) ∨
    ((∃ t, ctl = .branchTaken t ∨ ctl = .branchUntaken t) ∧ reason = .invalidBranchTarget) := by
  have seqCase : pcSequential n pc ≠ .fault reason := by
    unfold pcSequential
    split <;> simp
  cases ctl with
  | seq => exact absurd h seqCase
  | halt => cases h
  | jump target =>
    simp only [pcController] at h
    split at h <;> cases h
    exact .inl ⟨_, rfl, rfl⟩
  | branchTaken target =>
    simp only [pcController] at h
    split at h <;> cases h
    exact .inr ⟨⟨_, .inl rfl⟩, rfl⟩
  | branchUntaken target =>
    simp only [pcController] at h
    split at h
    · cases h
      exact .inr ⟨⟨_, .inr rfl⟩, rfl⟩
    · exact absurd h seqCase

/-! ## The commit of a step -/

theorem State.whenRunning_of_running {k : Nat → StepResult} (h : s.mode = .running pc) : s.whenRunning k = k pc := by
  simp [State.whenRunning, h]

/-- A step that answers a next state was taken by a running machine. -/
theorem State.whenRunning_next {k : Nat → StepResult} (h : s.whenRunning k = .next t) :
    ∃ pc, s.mode = .running pc ∧ k pc = .next t := by
  unfold State.whenRunning at h
  split at h
  · exact ⟨_, ‹_›, h⟩
  · cases h
  · cases h

/-- The engine state at the end of a committed step at `pc`: halted, or running at the index the controller gave, with steps
left (10_state.md R38, R46). -/
def CommitsAt (s : State) (pc : Nat) (ctl : Ctl) (m : Mode) : Prop :=
  (m = .halted ∧ (pcController s.config.checkUntakenBranchTarget s.instructionCount pc ctl = .halt ∨
    ∃ p, pcController s.config.checkUntakenBranchTarget s.instructionCount pc ctl = .next p ∧
      s.steps + 1 = s.instructionCount)) ∨
  (∃ p, m = .running p ∧ pcController s.config.checkUntakenBranchTarget s.instructionCount pc ctl = .next p ∧
    s.steps + 1 ≠ s.instructionCount)

/-- All the end of a step can do: enter the faulted state from the state before it, or commit the instruction's writes. -/
theorem State.complete_cases {effects : Except FaultReason State} {ctl : Ctl} (h : s.complete pc effects ctl = .next t) :
    (∃ reason, t = s.enterFaulted reason pc ∧
      (effects = .error reason ∨
        pcController s.config.checkUntakenBranchTarget s.instructionCount pc ctl = .fault reason)) ∨
    (∃ s' m, effects = .ok s' ∧ CommitsAt s pc ctl m ∧ t = s'.countStep.setMode m) := by
  unfold State.complete at h
  split at h
  · cases h
    exact .inl ⟨_, rfl, .inl rfl⟩
  · split at h
    · cases h
      exact .inl ⟨_, rfl, .inr ‹_›⟩
    · cases h
      exact .inr ⟨_, _, rfl, .inl ⟨rfl, .inl ‹_›⟩, rfl⟩
    · cases h
      refine .inr ⟨_, _, rfl, ?_, rfl⟩
      unfold modeAfter
      split
      · exact .inl ⟨rfl, .inr ⟨_, ‹_›, ‹_›⟩⟩
      · exact .inr ⟨_, rfl, ‹_›, ‹_›⟩

/-- The end of a step always answers a next state. -/
theorem State.complete_next (s : State) (pc : Nat) (effects : Except FaultReason State) (ctl : Ctl) :
    ∃ t, s.complete pc effects ctl = .next t := by
  unfold State.complete
  split
  · exact ⟨_, rfl⟩
  · split <;> exact ⟨_, rfl⟩

theorem State.complete_error (s : State) (pc : Nat) (reason : FaultReason) (ctl : Ctl) :
    s.complete pc (.error reason) ctl = .next (s.enterFaulted reason pc) := rfl

/-- A committed step that advances sequentially. -/
theorem State.complete_seq (s s' : State) (pc : Nat) :
    s.complete pc (.ok s') .seq = .next (s'.countStep.setMode
      (if pc + 1 = s.imem.length ∨ s.steps + 1 = s.imem.length then .halted else .running (pc + 1))) := by
  by_cases h : pc + 1 = s.imem.length <;> by_cases h' : s.steps + 1 = s.imem.length <;>
    simp [State.complete, pcController, pcSequential, modeAfter, h, h']

/-- A committed step that goes to a target in range. -/
theorem State.complete_jump (s s' : State) (pc : Nat) {t : Int} (h : inRange t s.imem.length = true) :
    s.complete pc (.ok s') (.jump t) = .next (s'.countStep.setMode
      (if s.steps + 1 = s.imem.length then .halted else .running t.toNat)) := by
  by_cases h' : s.steps + 1 = s.imem.length <;> simp [State.complete, pcController, modeAfter, h, h']

/-- The end of a jump whose target is out of range. -/
theorem State.complete_jump_fault (s s' : State) (pc : Nat) {t : Int} (h : inRange t s.imem.length = false) :
    s.complete pc (.ok s') (.jump t) = .next (s.enterFaulted .invalidJumpTarget pc) := by
  simp [State.complete, pcController, h]

/-- A committed taken branch to a target in range. -/
theorem State.complete_taken (s s' : State) (pc : Nat) {t : Int} (h : inRange t s.imem.length = true) :
    s.complete pc (.ok s') (.branchTaken t) = .next (s'.countStep.setMode
      (if s.steps + 1 = s.imem.length then .halted else .running t.toNat)) := by
  by_cases h' : s.steps + 1 = s.imem.length <;> simp [State.complete, pcController, modeAfter, h, h']

/-- The end of a taken branch whose target is out of range. -/
theorem State.complete_taken_fault (s s' : State) (pc : Nat) {t : Int} (h : inRange t s.imem.length = false) :
    s.complete pc (.ok s') (.branchTaken t) = .next (s.enterFaulted .invalidBranchTarget pc) := by
  simp [State.complete, pcController, h]

/-- A not-taken branch whose target is in range, or is not checked, advances sequentially. -/
theorem State.complete_untaken (s s' : State) (pc : Nat) {t : Int}
    (h : inRange t s.imem.length = true ∨ s.config.checkUntakenBranchTarget = false) :
    s.complete pc (.ok s') (.branchUntaken t) = s.complete pc (.ok s') .seq := by
  rcases h with h | h <;> simp [State.complete, pcController, h]

/-- The end of a not-taken branch whose target is checked and out of range. -/
theorem State.complete_untaken_fault (s s' : State) (pc : Nat) {t : Int} (h : inRange t s.imem.length = false)
    (hc : s.config.checkUntakenBranchTarget = true) :
    s.complete pc (.ok s') (.branchUntaken t) = .next (s.enterFaulted .invalidBranchTarget pc) := by
  simp [State.complete, pcController, h, hc]

end Sys2Proof.Machine
end

