-- ==== Sys2Proof/Laws/Exec.lean ====
section
/-! SUPPORT. Every instruction in the form of 10_state.md R38: `Execute` gives the writes or a fault, and the control choice; then
the step commits. Said once here, for all instructions; proofs over `exec` cite `exec_of_running` and `exec_next_cases`. -/

namespace Sys2Proof.Machine

/-- The writes of an instruction, or its operand-based fault (R38, `Execute`). -/
def effectsOf (i : Instr) (s : State) : Except FaultReason State :=
  match i with
  | .syscall =>
    if sint (s.readReg Reg.v0) = 1 then .ok (s.emit (sint (s.readReg Reg.a0)))
    else if sint (s.readReg Reg.v0) = 5 then
      match s.drawInput with
      | some (v, s') => s'.writeReg Reg.v0 v
      | none => .ok s
    else if sint (s.readReg Reg.v0) = 10 then .ok s
    else .error .invalidSyscall
  | .mfhi rd => s.writeReg rd s.hi
  | .mflo rd => s.writeReg rd s.lo
  | .mult rs rt =>
    .ok (s.setHiLo ((product64 (s.readReg rs) (s.readReg rt)).extractLsb' 32 32)
      ((product64 (s.readReg rs) (s.readReg rt)).extractLsb' 0 32))
  | .div rs rt => (divide (sint (s.readReg rs)) (sint (s.readReg rt))).map fun (q, r) => s.setHiLo r q
  | .addu rd rs rt => s.writeReg rd (bv32 (uint (s.readReg rs) + uint (s.readReg rt)))
  | .subu rd rs rt => s.writeReg rd (bv32 (uint (s.readReg rs) - uint (s.readReg rt)))
  | .and rd rs rt => s.writeReg rd (s.readReg rs &&& s.readReg rt)
  | .or rd rs rt => s.writeReg rd (s.readReg rs ||| s.readReg rt)
  | .slt rd rs rt => s.writeReg rd (setLessThan (s.readReg rs) (s.readReg rt))
  | .j _ | .beq _ _ _ | .bne _ _ _ => .ok s
  | .addiu rt rs imm => s.writeReg rt (bv32 (sint (s.readReg rs) + sext16 imm))
  | .lw rt rs imm => (s.loadWord (s.effectiveIndex rs imm)).bind fun v => s.writeReg rt v
  | .sw rt rs imm => s.storeWord (s.effectiveIndex rs imm) (s.readReg rt)

/-- The control choice of an instruction at `pc` (R38). -/
def controlOf (i : Instr) (s : State) (pc : Nat) : Ctl :=
  match i with
  | .syscall => if sint (s.readReg Reg.v0) = 10 then .halt else .seq
  | .j target => .jump (zext26 target)
  | .beq rs rt imm =>
    if equalWords (s.readReg rs) (s.readReg rt) then .branchTaken (branchTarget pc imm) else .branchUntaken (branchTarget pc imm)
  | .bne rs rt imm =>
    if !equalWords (s.readReg rs) (s.readReg rt) then .branchTaken (branchTarget pc imm)
    else .branchUntaken (branchTarget pc imm)
  | _ => .seq

/-- The instruction waits for an answer that never comes (70_reset_and_hazards.md R186). -/
def waitsForever (i : Instr) (s : State) : Prop :=
  i = .syscall ∧ sint (s.readReg Reg.v0) = 5 ∧ s.drawInput = none

/-- R38 for every instruction: in a running machine `exec` commits the instruction's writes and control choice. -/
theorem exec_of_running {i : Instr} {s : State} {pc : Nat} (h : s.mode = .running pc) (hw : ¬waitsForever i s) :
    exec i s = s.complete pc (effectsOf i s) (controlOf i s pc) := by
  cases i with
  | syscall =>
    simp only [exec, execSyscall, State.whenRunning_of_running h, effectsOf, controlOf]
    by_cases h1 : sint (s.readReg Reg.v0) = 1
    · simp [h1]
    by_cases h5 : sint (s.readReg Reg.v0) = 5
    · rcases s.drawInput_cases with hd | ⟨v, hd⟩
      · exact absurd ⟨rfl, h5, hd⟩ hw
      · simp [h5, hd]
    by_cases h10 : sint (s.readReg Reg.v0) = 10
    · simp [h10]
    · simp [h1, h5, h10]
  | _ =>
    simp only [exec, execMfhi, execMflo, execMult, execDiv, execAddu, execSubu, execAnd, execOr, execSlt, execAddiu, execJ,
      execBeq, execBne, execLw, execSw, State.writeResult, State.branch, State.whenRunning_of_running h, effectsOf, controlOf]

/-- An instruction that waits forever has no step. -/
theorem exec_waitsForever {i : Instr} {s : State} {pc : Nat} (h : s.mode = .running pc) (hw : waitsForever i s) :
    exec i s = .fault .hostNeverAnswers := by
  obtain ⟨rfl, h5, hd⟩ := hw
  simp [exec, execSyscall, State.whenRunning_of_running h, h5, hd]

/-- A machine that is not running has no step, whatever the instruction. -/
theorem exec_not_running {i : Instr} {s : State} (h : s.mode.isRunning = false) :
    exec i s = .fault .haltedIsTerminal ∨ exec i s = .fault .faultedIsTerminal := by
  cases hm : s.mode with
  | running pc => simp [Mode.isRunning, hm] at h
  | halted => left; cases i <;>
      simp [exec, execSyscall, execMfhi, execMflo, execMult, execDiv, execAddu, execSubu, execAnd, execOr, execSlt, execAddiu,
        execJ, execBeq, execBne, execLw, execSw, State.writeResult, State.branch, State.whenRunning, hm]
  | faulted _ _ => right; cases i <;>
      simp [exec, execSyscall, execMfhi, execMflo, execMult, execDiv, execAddu, execSubu, execAnd, execOr, execSlt, execAddiu,
        execJ, execBeq, execBne, execLw, execSw, State.writeResult, State.branch, State.whenRunning, hm]

/-- All an instruction can do when it answers a next state: from a running machine it enters the faulted state and changes
nothing else, or it commits its writes, counts the step and goes where its control choice says. -/
theorem exec_next_cases {i : Instr} {s t : State} (h : exec i s = .next t) :
    ∃ pc, s.mode = .running pc ∧ ¬waitsForever i s ∧
      ((∃ reason, t = s.enterFaulted reason pc ∧
          (effectsOf i s = .error reason ∨
            pcController s.config.checkUntakenBranchTarget s.instructionCount pc (controlOf i s pc) = .fault reason)) ∨
        (∃ s' m, effectsOf i s = .ok s' ∧ CommitsAt s pc (controlOf i s pc) m ∧ t = s'.countStep.setMode m)) := by
  cases hm : s.mode with
  | running pc =>
    have hw : ¬waitsForever i s := fun hw => by rw [exec_waitsForever hm hw] at h; cases h
    rw [exec_of_running hm hw] at h
    exact ⟨pc, rfl, hw, State.complete_cases h⟩
  | halted =>
    rcases exec_not_running (i := i) (s := s) (by simp [hm, Mode.isRunning]) with h' | h' <;> rw [h'] at h <;> cases h
  | faulted r l =>
    rcases exec_not_running (i := i) (s := s) (by simp [hm, Mode.isRunning]) with h' | h' <;> rw [h'] at h <;> cases h

/-- What the writes of an instruction can be, by the kind of state they reach. -/
inductive WritesOf (i : Instr) (s : State) : State → Prop where
  | nothing (h : storeIndexOf i s = none) : WritesOf i s s
  | register (r : Reg) (v : Word) (hs : i ≠ .syscall) (h : destinationOf i = some r) (h0 : r ≠ 0) :
      WritesOf i s (s.setX r v)
  | accumulators (hi lo : Word) (h : (∃ rs rt, i = .mult rs rt) ∨ ∃ rs rt, i = .div rs rt) : WritesOf i s (s.setHiLo hi lo)
  | output (h : i = .syscall) (hc : sint (s.readReg Reg.v0) = 1) : WritesOf i s (s.emit (sint (s.readReg Reg.a0)))
  | input (v : Word) (h : i = .syscall) (hc : sint (s.readReg Reg.v0) = 5) : WritesOf i s (s.takeInput.setX Reg.v0 v)
  | memory (k : Nat) (v : Word) (h : storeIndexOf i s = some (k : Int)) (hk : k < s.dmem.size) :
      WritesOf i s (s.setDmem (s.dmem.write k v))

/-- All the writes of an instruction can be. -/
theorem effectsOf_ok {i : Instr} {s s' : State} (hw : ¬waitsForever i s) (h : effectsOf i s = .ok s') : WritesOf i s s' := by
  have reg : ∀ {r v}, i ≠ .syscall → destinationOf i = some r → s.writeReg r v = .ok s' → WritesOf i s s' := by
    intro r v hs hd h
    rcases s.writeReg_cases r v with ⟨-, he⟩ | ⟨h0, he⟩ <;> rw [he] at h <;> cases h
    exact .register r v hs hd h0
  cases i with
  | syscall =>
    simp only [effectsOf] at h
    split at h
    · cases h; exact .output rfl ‹_›
    split at h
    · rename_i h5
      rcases s.drawInput_cases with hd | ⟨v, hd⟩
      · exact absurd ⟨rfl, h5, hd⟩ hw
      · simp only [hd] at h
        rw [State.writeReg_of_ne _ (by decide)] at h
        cases h
        exact .input v rfl h5
    split at h
    · cases h; exact .nothing rfl
    · cases h
  | mult rs rt => cases h; exact .accumulators _ _ (.inl ⟨rs, rt, rfl⟩)
  | div rs rt =>
    simp only [effectsOf] at h
    cases hd : divide (sint (s.readReg rs)) (sint (s.readReg rt)) with
    | error e => rw [hd] at h; cases h
    | ok qr => rw [hd] at h; cases h; exact .accumulators _ _ (.inr ⟨rs, rt, rfl⟩)
  | mfhi rd => exact reg (by simp) rfl h
  | mflo rd => exact reg (by simp) rfl h
  | addu rd rs rt => exact reg (by simp) rfl h
  | subu rd rs rt => exact reg (by simp) rfl h
  | and rd rs rt => exact reg (by simp) rfl h
  | or rd rs rt => exact reg (by simp) rfl h
  | slt rd rs rt => exact reg (by simp) rfl h
  | addiu rt rs imm => exact reg (by simp) rfl h
  | lw rt rs imm =>
    simp only [effectsOf] at h
    rcases s.loadWord_cases (s.effectiveIndex rs imm) with ⟨-, he⟩ | ⟨-, he⟩ <;> rw [he] at h
    · cases h
    · exact reg (by simp) rfl h
  | sw rt rs imm =>
    simp only [effectsOf] at h
    rcases s.storeWord_cases (s.effectiveIndex rs imm) (s.readReg rt) with ⟨-, he⟩ | ⟨hr, he⟩ <;> rw [he] at h <;> cases h
    refine .memory _ _ ?_ (inRange_toNat_lt hr)
    rw [inRange_iff] at hr
    simp [storeIndexOf, Int.toNat_of_nonneg hr.1]
  | j target => cases h; exact .nothing rfl
  | beq rs rt imm => cases h; exact .nothing rfl
  | bne rs rt imm => cases h; exact .nothing rfl

/-! ## What the writes do not depend on -/

/-- A draw does not depend on the step count, the engine state or the accumulators, and leaves them. -/
theorem State.drawInput_with (s : State) (m : Mode) (n : Nat) (h l : Word) :
    ({ s with mode := m, steps := n, hi := h, lo := l } : State).drawInput =
      s.drawInput.map fun (v, u) => (v, { u with mode := m, steps := n, hi := h, lo := l }) := by
  rcases s with ⟨_, _, _, _, _, _, _, _, _, input, _⟩
  rcases input with _ | ⟨_ | _, _⟩ <;> rfl

/-- A register write does not depend on the engine state, the step count or the accumulators, and leaves them. -/
theorem State.writeReg_with (s : State) (m : Mode) (n : Nat) (h l : Word) (r : Reg) (v : Word) :
    ({ s with mode := m, steps := n, hi := h, lo := l } : State).writeReg r v =
      (s.writeReg r v).map fun u => { u with mode := m, steps := n, hi := h, lo := l } := by
  unfold State.writeReg
  split <;> rfl

/-- An instruction that does not name the accumulators computes the same writes whatever they hold, at any engine state and step
count, and leaves all four. -/
theorem effectsOf_with (i : Instr) (s : State) (m : Mode) (n : Nat) (h l : Word) (h1 : ∀ rd, i ≠ .mfhi rd)
    (h2 : ∀ rd, i ≠ .mflo rd) (h3 : ∀ rs rt, i ≠ .mult rs rt) (h4 : ∀ rs rt, i ≠ .div rs rt) :
    effectsOf i { s with mode := m, steps := n, hi := h, lo := l } =
      (effectsOf i s).map fun u => { u with mode := m, steps := n, hi := h, lo := l } := by
  cases i with
  | mfhi rd => exact absurd rfl (h1 rd)
  | mflo rd => exact absurd rfl (h2 rd)
  | mult rs rt => exact absurd rfl (h3 rs rt)
  | div rs rt => exact absurd rfl (h4 rs rt)
  | syscall =>
    have read : ∀ r, ({ s with mode := m, steps := n, hi := h, lo := l } : State).readReg r = s.readReg r := fun _ => rfl
    simp only [effectsOf, read, State.drawInput_with]
    split
    · rfl
    split
    · rcases s.drawInput_cases with hd | ⟨v, hd⟩ <;> simp only [hd, Option.map]
      · rfl
      · exact State.writeReg_with ..
    split <;> rfl
  | lw rt rs imm =>
    have load : ({ s with mode := m, steps := n, hi := h, lo := l } : State).loadWord
        (({ s with mode := m, steps := n, hi := h, lo := l } : State).effectiveIndex rs imm) =
          s.loadWord (s.effectiveIndex rs imm) := rfl
    simp only [effectsOf, load]
    cases s.loadWord (s.effectiveIndex rs imm) with
    | error => rfl
    | ok v => exact State.writeReg_with ..
  | sw rt rs imm =>
    change State.storeWord _ (s.effectiveIndex rs imm) (s.readReg rt) = _
    simp only [effectsOf, State.storeWord]
    split <;> rfl
  | j _ | beq _ _ _ | bne _ _ _ => rfl
  | _ => exact State.writeReg_with ..

/-- `mult` and `div` compute the same writes whatever the accumulators hold, at any engine state and step count. -/
theorem effectsOf_with_accumulators (i : Instr) (s : State) (m : Mode) (n : Nat) (h l : Word)
    (hi : (∃ rs rt, i = .mult rs rt) ∨ ∃ rs rt, i = .div rs rt) :
    effectsOf i { s with mode := m, steps := n, hi := h, lo := l } =
      (effectsOf i s).map fun u => { u with mode := m, steps := n } := by
  rcases hi with ⟨rs, rt, rfl⟩ | ⟨rs, rt, rfl⟩
  · rfl
  · have read : ∀ r, ({ s with mode := m, steps := n, hi := h, lo := l } : State).readReg r = s.readReg r := fun _ => rfl
    simp only [effectsOf, read]
    cases divide (sint (s.readReg rs)) (sint (s.readReg rt)) <;> rfl

/-- Every instruction computes the same writes at any engine state and step count, and leaves both. -/
theorem effectsOf_with_control (i : Instr) (s : State) (m : Mode) (n : Nat) :
    effectsOf i { s with mode := m, steps := n } = (effectsOf i s).map fun u => { u with mode := m, steps := n } := by
  by_cases hmd : (∃ rs rt, i = .mult rs rt) ∨ ∃ rs rt, i = .div rs rt
  · exact effectsOf_with_accumulators i s m n s.hi s.lo hmd
  by_cases hmf : (∃ rd, i = .mfhi rd) ∨ ∃ rd, i = .mflo rd
  · rcases hmf with ⟨rd, rfl⟩ | ⟨rd, rfl⟩ <;> simp only [effectsOf, State.writeReg] <;> split <;> rfl
  push Not at hmd hmf
  refine (effectsOf_with i s m n s.hi s.lo hmf.1 hmf.2 hmd.1 hmd.2).trans ?_
  by_cases hw : waitsForever i s
  · obtain ⟨rfl, h5, hd⟩ := hw
    simp [effectsOf, h5, hd, Except.map]
  cases he : effectsOf i s with
  | error => rfl
  | ok u =>
    cases effectsOf_ok hw he with
    | accumulators hi lo h =>
      rcases h with ⟨rs, rt, rfl⟩ | ⟨rs, rt, rfl⟩
      · exact absurd rfl (hmd.1 rs rt)
      · exact absurd rfl (hmd.2 rs rt)
    | _ => rfl

/-- Whether an instruction waits does not depend on the engine state, the step count or the accumulators. -/
theorem waitsForever_with (i : Instr) (s : State) (m : Mode) (n : Nat) (h l : Word) :
    waitsForever i { s with mode := m, steps := n, hi := h, lo := l } ↔ waitsForever i s := by
  have read : ({ s with mode := m, steps := n, hi := h, lo := l } : State).readReg Reg.v0 = s.readReg Reg.v0 := rfl
  simp only [waitsForever, read, State.drawInput_with, Option.map_eq_none_iff]

/-- The control choice does not depend on the engine state, the step count or the accumulators. -/
theorem controlOf_with (i : Instr) (s : State) (m : Mode) (n : Nat) (h l : Word) (pc : Nat) :
    controlOf i { s with mode := m, steps := n, hi := h, lo := l } pc = controlOf i s pc := by
  cases i <;> rfl

/-! ## The committed step -/

/-- What no instruction writes: the parameters, the program, the size of data memory; the commit alone writes the engine state
and the step count. -/
theorem WritesOf.frame {i : Instr} {s s' : State} (h : WritesOf i s s') :
    s'.config = s.config ∧ s'.mode = s.mode ∧ s'.steps = s.steps ∧ s'.imem = s.imem ∧ s'.dmem.size = s.dmem.size := by
  cases h <;> simp

/-- A committed step leaves the machine halted or running. -/
theorem CommitsAt.not_faulted {s : State} {pc : Nat} {ctl : Ctl} {m : Mode} (h : CommitsAt s pc ctl m) :
    m.isFaulted = false := by
  rcases h with ⟨rfl, -⟩ | ⟨p, rfl, -⟩ <;> rfl

/-- A step that answers a next state executes the instruction fetched at the pc. -/
theorem step_next_cases {s t : State} (h : step s = .next t) :
    ∃ pc i, s.mode = .running pc ∧ s.fetch pc = some i ∧ exec i s = .next t := by
  obtain ⟨pc, hm, hk⟩ := State.whenRunning_next h
  split at hk
  · exact ⟨pc, _, hm, ‹_›, hk⟩
  · cases hk

end Sys2Proof.Machine
end

