-- ==== Sys2Proof/Laws/Load.lean ====
section
/-! SUPPORT. What a load can answer, and the words of a loaded data memory (70_reset_and_hazards.md R180, R181). -/

namespace Sys2Proof.Machine

/-- All a load can do when it answers a state: the decode-fault state of the first illegal word, or the loaded state. -/
theorem load_cases {l : Launch} {t : State} (h : load l = .next t) :
    l.wellFormed = true ∧
      ((∃ k e, decodeProgram l.program = .error (k, e) ∧ t = decodeFaultState l k) ∨
        ∃ imem, decodeProgram l.program = .ok imem ∧ t = loadedState l.config imem (Memory.ofWords l.data) l.input) := by
  unfold load at h
  split at h
  · refine ⟨‹_›, ?_⟩
    split at h <;> cases h
    · exact .inl ⟨_, _, ‹_›, rfl⟩
    · exact .inr ⟨_, ‹_›, rfl⟩
  · cases h

/-- The words of a loaded data memory are the launch's (20_memory.md R73). -/
theorem Memory.words_ofWords (data : List Word) : (Memory.ofWords data).words = data := by
  apply List.ext_getElem
  · simp [Memory.words]
  · intro k _ h
    simp [Memory.words, Memory.read_ofWords data k h]

end Sys2Proof.Machine
end

