-- ==== Sys2Proof/Laws/Observe.lean ====
section
/-! SUPPORT. What the snapshots hold (10_state.md R25, R34). -/

namespace Sys2Proof.Machine

/-- The register snapshot has one entry for each general register. -/
@[simp] theorem State.snapshot_length (s : State) : s.snapshot.x.length = 32 := by simp [State.snapshot]

@[simp] theorem State.snapshot_hi (s : State) : s.snapshot.hi = s.hi := rfl

@[simp] theorem State.snapshot_lo (s : State) : s.snapshot.lo = s.lo := rfl

/-- Entry `r` of the register snapshot is what the read port gives for `r`. -/
theorem State.snapshot_x (s : State) (r : Reg) : s.snapshot.x[r.toNat]? = some (s.readReg r) := by
  have h : r.toNat < 32 := r.isLt
  simp [State.snapshot, h]

/-- The data snapshot has one entry for each data word. -/
@[simp] theorem Memory.words_length (m : Memory) : m.words.length = m.size := by simp [Memory.words]

/-- Entry `k` of the data snapshot is the data word `k`. -/
theorem Memory.words_getElem? (m : Memory) {k : Nat} (h : k < m.size) : m.words[k]? = some (m.read k) := by
  simp [Memory.words, h]

end Sys2Proof.Machine
end

