-- ==== Sys2Proof/Laws/PerInstr.lean ====
section
/-! SUPPORT. The family of statements made per instruction: `TableRow` says that the canonical word of an instruction lies in its
row of spec/opcode_table.json, under the mask and match written there (30_encoding.md R84, R85, R87). -/

namespace Sys2Proof.Laws.TableRow

/-- The row's mask and match, as spec/opcode_table.json gives them. -/
def rowOf : Instr → Word × Word
  | .syscall => (0xFC00003F, 0x0000000C)
  | .mfhi _ => (0xFC00003F, 0x00000010)
  | .mflo _ => (0xFC00003F, 0x00000012)
  | .mult _ _ => (0xFC00003F, 0x00000018)
  | .div _ _ => (0xFC00003F, 0x0000001A)
  | .addu _ _ _ => (0xFC00003F, 0x00000021)
  | .subu _ _ _ => (0xFC00003F, 0x00000023)
  | .and _ _ _ => (0xFC00003F, 0x00000024)
  | .or _ _ _ => (0xFC00003F, 0x00000025)
  | .slt _ _ _ => (0xFC00003F, 0x0000002A)
  | .j _ => (0xFC000000, 0x08000000)
  | .beq _ _ _ => (0xFC000000, 0x10000000)
  | .bne _ _ _ => (0xFC000000, 0x14000000)
  | .addiu _ _ _ => (0xFC000000, 0x24000000)
  | .lw _ _ _ => (0xFC000000, 0x8C000000)
  | .sw _ _ _ => (0xFC000000, 0xAC000000)

/-- The canonical word, masked as the row says, is the row's match. -/
def Statement (i : Instr) : Prop := encode i &&& (rowOf i).1 = (rowOf i).2

/-- An R-format word keeps its function code and its opcode 0 under the R-format mask. -/
theorem register_row (rs rt rd : BitVec 5) (funct : BitVec 6) :
    encodeRegisterFormat rs rt rd 0 funct &&& 0xFC00003F = fieldAt funct 0 := by
  apply BitVec.eq_of_getLsbD_eq
  intro i hi
  simp only [encodeRegisterFormat, fieldAt, BitVec.getLsbD_and, BitVec.getLsbD_cast, BitVec.getLsbD_append,
    BitVec.getLsbD_shiftLeft, BitVec.getLsbD_setWidth]
  interval_cases i <;> simp

/-- An I-format word keeps its opcode under the mask of bits 31 to 26. -/
theorem immediate_row (opcode : BitVec 6) (rs rt : Reg) (imm : Imm16) :
    encodeImmediateFormat opcode rs rt imm &&& 0xFC000000 = fieldAt opcode 26 := by
  apply BitVec.eq_of_getLsbD_eq
  intro i hi
  simp only [encodeImmediateFormat, fieldAt, BitVec.getLsbD_and, BitVec.getLsbD_cast, BitVec.getLsbD_append,
    BitVec.getLsbD_shiftLeft, BitVec.getLsbD_setWidth]
  interval_cases i <;> simp

/-- The J-format word keeps its opcode 2 under the mask of bits 31 to 26. -/
theorem jump_row (target : Target26) : encodeJumpFormat target &&& 0xFC000000 = fieldAt 2#6 26 := by
  apply BitVec.eq_of_getLsbD_eq
  intro i hi
  simp only [encodeJumpFormat, fieldAt, BitVec.getLsbD_and, BitVec.getLsbD_cast, BitVec.getLsbD_append,
    BitVec.getLsbD_shiftLeft, BitVec.getLsbD_setWidth]
  interval_cases i <;> simp

theorem syscall : Statement .syscall := (register_row _ _ _ _).trans rfl
theorem mfhi (rd : Reg) : Statement (.mfhi rd) := (register_row _ _ _ _).trans rfl
theorem mflo (rd : Reg) : Statement (.mflo rd) := (register_row _ _ _ _).trans rfl
theorem mult (rs : Reg) (rt : Reg) : Statement (.mult rs rt) := (register_row _ _ _ _).trans rfl
theorem div (rs : Reg) (rt : Reg) : Statement (.div rs rt) := (register_row _ _ _ _).trans rfl
theorem addu (rd : Reg) (rs : Reg) (rt : Reg) : Statement (.addu rd rs rt) := (register_row _ _ _ _).trans rfl
theorem subu (rd : Reg) (rs : Reg) (rt : Reg) : Statement (.subu rd rs rt) := (register_row _ _ _ _).trans rfl
theorem and (rd : Reg) (rs : Reg) (rt : Reg) : Statement (.and rd rs rt) := (register_row _ _ _ _).trans rfl
theorem or (rd : Reg) (rs : Reg) (rt : Reg) : Statement (.or rd rs rt) := (register_row _ _ _ _).trans rfl
theorem slt (rd : Reg) (rs : Reg) (rt : Reg) : Statement (.slt rd rs rt) := (register_row _ _ _ _).trans rfl
theorem j (target : Target26) : Statement (.j target) := (jump_row _).trans rfl
theorem beq (rs : Reg) (rt : Reg) (imm : Imm16) : Statement (.beq rs rt imm) := (immediate_row _ _ _ _).trans rfl
theorem bne (rs : Reg) (rt : Reg) (imm : Imm16) : Statement (.bne rs rt imm) := (immediate_row _ _ _ _).trans rfl
theorem addiu (rt : Reg) (rs : Reg) (imm : Imm16) : Statement (.addiu rt rs imm) := (immediate_row _ _ _ _).trans rfl
theorem lw (rt : Reg) (rs : Reg) (imm : Imm16) : Statement (.lw rt rs imm) := (immediate_row _ _ _ _).trans rfl
theorem sw (rt : Reg) (rs : Reg) (imm : Imm16) : Statement (.sw rt rs imm) := (immediate_row _ _ _ _).trans rfl

end Sys2Proof.Laws.TableRow
end

