-- ==== Sys2Proof/Tests/Slice0.lean ====
section
/-! SUPPORT. The model's own tests. The words and the expected values are those of 95_test_vectors.md (the id stands in each
comment) or are worked out by hand from the rule cited. The witnesses at the end meet the hypotheses of the obligations,
clause by clause. -/

namespace Sys2Proof.Tests

open Sys2Proof Sys2Proof.Machine

/-! ## Helpers -/

/-- A machine of `n` instructions (all `syscall`, to be replaced), running at `pc`, with data and registers set. -/
def machine (n pc : Nat) (data : List Word) (regs : List (Reg × Word)) : State :=
  regs.foldl (fun s p => s.setX p.1 p.2)
    ((loadedState {} (List.replicate n .syscall) (Memory.ofWords data) []).setMode (.running pc))

/-- One step of a machine with a word placed at its pc. -/
def stepWord (w : Word) (s : State) : StepResult := step (s.withFetchWord 32 w.toNat)

/-- The outcome is a next state with a property. -/
def gives (o : StepResult) (p : State → Bool) : Bool :=
  match o with
  | .next t => p t
  | _ => false

/-- The outcome is a next state that is `Faulted(reason, location)` with the registers, accumulators and step count of `s`. -/
def faults (o : StepResult) (s : State) (reason : FaultReason) (location : Nat) : Bool :=
  gives o fun t =>
    t.mode = .faulted reason location && t.x = s.x && t.hi = s.hi && t.lo = s.lo && t.steps = s.steps && t.dmem = s.dmem

/-! ## Well-formedness: each check refuses an ill-formed term -/

theorem test_register_32_refused : Reg.ofIndex? 32 = none ∧ Reg.ofIndex? 31 = some 31 := by decide
theorem test_immediate_range : Imm16.ofInt? 32768 = none ∧ Imm16.ofInt? (-32769) = none ∧
    Imm16.ofInt? 32767 = some 0x7FFF ∧ Imm16.ofInt? (-32768) = some 0x8000 := by decide
theorem test_jump_index_range : Target26.ofIndex? (2 ^ 26) = none ∧ Target26.ofIndex? (2 ^ 26 - 1) = some 0x3FFFFFF := by
  decide
theorem test_launch_sizes : launchSizesOk (2 ^ 31) 0 = false ∧ launchSizesOk 0 (2 ^ 31 - 2 ^ 15 + 1) = false ∧
    launchSizesOk (2 ^ 31 - 2 ^ 15) 1 = false ∧ launchSizesOk (2 ^ 31 - 2 ^ 15) 0 = true := by decide
theorem test_malformed_text_refused : (match loadSupplied (.malformedText 3) with
    | .refused (.malformedText line) => line == 3
    | _ => false) = true := by decide

/-! ## Decoding: L2-DEC, every constructor, and the illegal words -/

theorem test_decode_syscall : decode 0x0000000C = .ok .syscall ∧ decode 0x03FFFFCC = .ok .syscall := by decide
theorem test_decode_mfhi : decode 0x00004010 = .ok (.mfhi 8) ∧ decode 0x03E0F810 = .ok (.mfhi 31) := by decide
theorem test_decode_mflo : decode 0x00002012 = .ok (.mflo 4) := by decide
theorem test_decode_mult : decode 0x01090018 = .ok (.mult 8 9) := by decide
theorem test_decode_div : decode 0x0109001A = .ok (.div 8 9) := by decide
theorem test_decode_addu : decode 0x01095821 = .ok (.addu 11 8 9) ∧ decode 0x010957E1 = .ok (.addu 10 8 9) := by decide
theorem test_decode_subu : decode 0x01095823 = .ok (.subu 11 8 9) := by decide
theorem test_decode_and : decode 0x01095024 = .ok (.and 10 8 9) := by decide
theorem test_decode_or : decode 0x01095025 = .ok (.or 10 8 9) := by decide
theorem test_decode_slt : decode 0x0128502A = .ok (.slt 10 9 8) := by decide
theorem test_decode_j : decode 0x08000000 = .ok (.j 0) ∧ decode 0x0BFFFFFF = .ok (.j 67108863) := by decide
theorem test_decode_beq : decode 0x10000000 = .ok (.beq 0 0 0) ∧ decode 0x1109FFFF = .ok (.beq 8 9 0xFFFF) := by decide
theorem test_decode_bne : decode 0x1500FFFE = .ok (.bne 8 0 0xFFFE) := by decide
theorem test_decode_addiu : decode 0x24080003 = .ok (.addiu 8 0 3) ∧ decode 0x2508FFFF = .ok (.addiu 8 8 0xFFFF) := by decide
theorem test_decode_lw : decode 0x8C080004 = .ok (.lw 8 0 4) ∧ decode 0x8FFFFFFF = .ok (.lw 31 31 0xFFFF) := by decide
theorem test_decode_sw : decode 0xAF8B0002 = .ok (.sw 11 28 2) := by decide
theorem test_decode_illegal_functions : decode 0x00000000 = .error (.unsupportedFunction 0) ∧
    decode 0x0000000D = .error (.unsupportedFunction 13) ∧ decode 0x00000008 = .error (.unsupportedFunction 8) ∧
    decode 0x00000020 = .error (.unsupportedFunction 32) := by decide
theorem test_decode_illegal_opcodes : decode 0x04000000 = .error (.unsupportedOpcode 1) ∧
    decode 0x0C000000 = .error (.unsupportedOpcode 3) ∧ decode 0x18000000 = .error (.unsupportedOpcode 6) ∧
    decode 0x20000000 = .error (.unsupportedOpcode 8) ∧ decode 0x3C000000 = .error (.unsupportedOpcode 15) ∧
    decode 0xFFFFFFFF = .error (.unsupportedOpcode 63) ∧ decode 0xFC00000C = .error (.unsupportedOpcode 63) := by decide
/-- The encoder on L2-DEC's canonical words, and two words of L3. -/
theorem test_encode_words : encode .syscall = 0x0000000C ∧ encode (.mfhi 8) = 0x00004010 ∧ encode (.mflo 4) = 0x00002012 ∧
    encode (.div 8 9) = 0x0109001A ∧ encode (.slt 10 9 8) = 0x0128502A ∧ encode (.j 8) = 0x08000008 ∧
    encode (.bne 8 0 0xFFFE) = 0x1500FFFE ∧ encode (.sw 11 28 2) = 0xAF8B0002 ∧ encode (.lw 9 28 1) = 0x8F890001 := by decide
theorem test_table_word : decodeTableWord 32 0x24020001 = some (.addiu 2 0 1) ∧ decodeTableWord 32 0x0000000D = none := by
  decide

/-! ## One step per instruction -/

/-- L2-SYS-1, L2-SYS-3, L2-SYS-4. -/
theorem test_syscall_prints_reads_halts :
    gives (stepWord 0x0000000C (machine 4 1 [] [(2, 1), (4, -5)])) (fun t => t.out = [-5] && t.mode = .running 2) ∧
    gives (stepWord 0x0000000C { machine 4 1 [] [(2, 5)] with input := [.value 0x80000000] })
      (fun t => t.readReg 2 = 0x80000000 && t.mode = .running 2) ∧
    gives (stepWord 0x0000000C (machine 4 1 [] [(2, 10)])) (fun t => t.mode = .halted && t.steps = 1) := by decide
/-- L2-SYS-8: the code is not masked. -/
theorem test_syscall_other_code_faults :
    faults (stepWord 0x0000000C (machine 4 1 [] [(2, 0x10000001)])) (machine 4 1 [] [(2, 0x10000001)]) .invalidSyscall 1 := by
  decide
/-- L2-RF-4, and the copy (R120). -/
theorem test_mfhi : gives (stepWord 0x00004010 ((machine 4 1 [] []).setHiLo 6 7)) (fun t => t.readReg 8 = 6) ∧
    faults (stepWord 0x00000010 (machine 4 1 [] [])) (machine 4 1 [] []) .zeroRegisterWrite 1 := by decide
/-- L2-MD-22, and the copy (R121). -/
theorem test_mflo : gives (stepWord 0x00004012 ((machine 4 1 [] []).setHiLo 6 7)) (fun t => t.readReg 8 = 7) ∧
    gives (stepWord 0x00004012 (machine 4 0 [] [(8, 5)])) (fun t => t.readReg 8 = 0) := by decide
/-- L1-3. -/
theorem test_mult_70000 : gives (stepWord 0x01090018 (machine 4 1 [] [(8, 70000), (9, 70000)]))
    (fun t => t.hi = 1 && t.lo = 0x24101100 && t.readReg 0 = 0) := by decide
/-- L2-MD-4: the signed product. -/
theorem test_mult_signed : gives (stepWord 0x01090018 (machine 4 1 [] [(8, 0x80000000), (9, 0x7FFFFFFF)]))
    (fun t => t.hi = 0xC0000000 && t.lo = 0x80000000) := by decide
/-- L2-MD-8 and L2-MD-9: truncation toward zero. -/
theorem test_div_truncates :
    gives (stepWord 0x0109001A (machine 4 1 [] [(8, -7), (9, 2)])) (fun t => t.lo = -3 && t.hi = -1) ∧
    gives (stepWord 0x0109001A (machine 4 1 [] [(8, 7), (9, -2)])) (fun t => t.lo = -3 && t.hi = 1) := by decide
/-- L2-MD-17 and L2-MD-19. -/
theorem test_div_faults :
    faults (stepWord 0x0109001A (machine 4 1 [] [(8, 0x80000000), (9, -1)])) (machine 4 1 [] [(8, 0x80000000), (9, -1)])
      .divideOverflow 1 ∧
    faults (stepWord 0x0109001A (machine 4 1 [] [(9, 5)])) (machine 4 1 [] [(9, 5)]) .divideByZero 1 := by decide
/-- L2-ALU-1, L2-ALU-3. -/
theorem test_addu_wraps :
    gives (stepWord 0x01095821 (machine 4 1 [] [(8, 0x7FFFFFFF), (9, 1)])) (fun t => t.readReg 11 = 0x80000000) ∧
    gives (stepWord 0x01084021 (machine 4 1 [] [(8, 5)])) (fun t => t.readReg 8 = 10) := by decide
/-- L2-RF-3. -/
theorem test_addu_to_zero_faults :
    faults (stepWord 0x01080021 (machine 4 1 [] [(8, 1)])) (machine 4 1 [] [(8, 1)]) .zeroRegisterWrite 1 := by decide
/-- L2-ALU-4, L2-ALU-6. -/
theorem test_subu :
    gives (stepWord 0x01095823 (machine 4 1 [] [(9, 1)])) (fun t => t.readReg 11 = 0xFFFFFFFF) ∧
    gives (stepWord 0x01095823 (machine 4 1 [] [(8, 5), (9, -3)])) (fun t => t.readReg 11 = 8) := by decide
/-- L2-ALU-7. -/
theorem test_and : gives (stepWord 0x01095024 (machine 4 1 [] [(8, 0xFF0F), (9, 0x0FF0)])) (fun t => t.readReg 10 = 0xF00) := by
  decide
/-- L2-ALU-9. -/
theorem test_or : gives (stepWord 0x01095025 (machine 4 1 [] [(8, 0xFF0F), (9, 0x0FF0)])) (fun t => t.readReg 10 = 0xFFFF) := by
  decide
/-- L2-ALU-13, L2-ALU-12, with `rs = 9`, `rt = 8`. -/
theorem test_slt_signed :
    gives (stepWord 0x0128502A (machine 4 1 [] [(9, 0x80000000), (8, 0x7FFFFFFF)])) (fun t => t.readReg 10 = 1) ∧
    gives (stepWord 0x0128502A (machine 4 1 [] [(9, 5), (8, -3)])) (fun t => t.readReg 10 = 0) := by decide
/-- L2-ALU-16, with the word of `addiu $t0, $zero, 0x8000`, and L2-ALU-18. -/
theorem test_addiu_sign_extends :
    gives (stepWord 0x24088000 (machine 4 1 [] [])) (fun t => t.readReg 8 = 0xFFFF8000) ∧
    gives (stepWord 0x25080001 (machine 4 1 [] [(8, 0x7FFFFFFF)])) (fun t => t.readReg 8 = 0x80000000) := by decide
/-- L2-RF-5. -/
theorem test_addiu_to_zero_faults :
    faults (stepWord 0x24000005 (machine 4 1 [] [])) (machine 4 1 [] []) .zeroRegisterWrite 1 := by decide
/-- L2-CTL-2, L2-CTL-3. -/
theorem test_j : gives (stepWord 0x08000007 (machine 8 1 [] [])) (fun t => t.mode = .running 7) ∧
    faults (stepWord 0x08000008 (machine 8 1 [] [])) (machine 8 1 [] []) .invalidJumpTarget 1 := by decide
/-- L2-CTL-5, L2-CTL-7: relative to the branch's own index. -/
theorem test_beq_taken : gives (stepWord 0x10000002 (machine 5 1 [] [])) (fun t => t.mode = .running 3) ∧
    faults (stepWord 0x1000FFFF (machine 5 0 [] [])) (machine 5 0 [] []) .invalidBranchTarget 0 := by decide
/-- L2-CTL-8, under both values of the parameter. -/
theorem test_beq_untaken :
    gives (stepWord 0x1109FFFF (machine 5 0 [] [(8, 1), (9, 2)])) (fun t => t.mode = .running 1) ∧
    gives (stepWord 0x1109FFFF { machine 5 0 [] [(8, 1), (9, 2)] with config.checkUntakenBranchTarget := true })
      (fun t => t.mode = .faulted .invalidBranchTarget 0) := by decide
/-- L2-CTL-11, L2-CTL-9. -/
theorem test_bne_taken : gives (stepWord 0x1500FFFE (machine 5 4 [] [(8, 1)])) (fun t => t.mode = .running 2) ∧
    faults (stepWord 0x15000001 (machine 5 4 [] [(8, 3)])) (machine 5 4 [] [(8, 3)]) .invalidBranchTarget 4 := by decide
/-- L2-CTL-10: not taken at the last index. -/
theorem test_bne_falls_off : gives (stepWord 0x15000001 (machine 5 4 [] [])) (fun t => t.mode = .halted && t.steps = 1) := by
  decide
/-- L2-LS-5, L2-LS-10. -/
theorem test_lw :
    gives (stepWord 0x8D28FFFF (machine 4 1 [0, 0, 42, 0] [(9, 7)])) (fun t => t.readReg 8 = 42) ∧
    gives (stepWord 0x8D290000 (machine 4 1 [0, 77, 0, 0] [(9, 5)])) (fun t => t.readReg 9 = 77) := by decide
/-- L2-LS-3, L1-8, L2-RF-6, L2-RF-7: the address is checked before the destination. -/
theorem test_lw_faults :
    gives (stepWord 0x8F880003 (machine 5 1 [7, 8, 9] [])) (fun t => t.mode = .faulted .invalidDataAddress 1) ∧
    gives (stepWord 0x8C080004 (machine 5 1 [7, 8, 9] [])) (fun t => t.mode = .faulted .invalidDataAddress 1) ∧
    gives (stepWord 0x8F800000 (machine 5 1 [7, 8, 9] [])) (fun t => t.mode = .faulted .zeroRegisterWrite 1) ∧
    gives (stepWord 0x8C000000 (machine 5 1 [7, 8, 9] [])) (fun t => t.mode = .faulted .invalidDataAddress 1) := by decide
/-- L2-LS-6, L2-LS-7. -/
theorem test_sw :
    gives (stepWord 0xAF800003 (machine 4 1 [1, 2, 3, 5] [])) (fun t => t.dmem.words = [1, 2, 3, 0] && t.dmem.wf) ∧
    gives (stepWord 0xAF8B0002 (machine 10 5 [5, -3, 0] [(11, 8)])) (fun t => t.dmem.words = [5, -3, 8]) := by decide
/-- L2-LS-8. -/
theorem test_sw_faults : faults (stepWord 0xAF880000 (machine 4 1 [] [(8, 1)])) (machine 4 1 [] [(8, 1)]) .invalidDataAddress 1 := by
  decide

/-! ## Load, reset and run ends -/

/-- L2-ENG-1, L2-ENG-2, L2-ENG-3, L2-RF-2. -/
theorem test_load :
    gives (load { program := [], data := [] }) (fun t => t.mode = .halted && t.steps = 0 && t.mode.exitStatus = some 0) ∧
    gives (load { program := [0x24080003, 0x0000000D, 0x0C000000], data := [] }) (fun t => t.mode = .faulted .decodeError 2) ∧
    gives (load { program := [0x0000000D, 0x00000000], data := [] }) (fun t => t.mode = .faulted .decodeError 1) ∧
    gives (load { program := List.replicate 7 0x0000000C, data := [9] })
      (fun t => t.readReg 28 = 7 && t.readReg 29 = 0 && t.hi = 0 && t.lo = 0 && t.mode = .running 0 && t.dmem.words = [9]) := by
  decide
/-- L2-ENG-4: the first step of `j 0` is the last of one. L2-CTL-12: exhaustion although the next pc is valid. -/
theorem test_step_bound :
    gives (stepWord 0x08000000 State.reset) (fun t => t.mode = .halted && t.steps = 1) ∧
    gives (stepWord 0x25080001 { machine 5 3 [] [] with steps := 4 }) (fun t => t.mode = .halted && t.steps = 5 && t.readReg 8 = 1) := by
  decide
/-- L2-CTL-13: the fall-off. -/
theorem test_fall_off : gives (stepWord 0x25080001 (machine 5 4 [] [])) (fun t => t.mode = .halted && t.readReg 8 = 1) := by decide
/-- An illegal word placed from reset faults its load (30_encoding.md R94). -/
theorem test_placed_illegal_word : (State.reset.withFetchWord 32 0x0000000D).mode = .faulted .decodeError 1 := by decide
/-- The names of R21. -/
theorem test_register_names : regNames[Reg.gp.toNat]? = some "$gp" ∧ regNames[8]? = some "$t0" ∧ regNames[24]? = some "$t8" ∧
    regNames.length = 32 ∧ Reg.role 28 = .globalPointer ∧ Reg.role 25 = .temporary ∧ Reg.role 31 = .returnAddress := by decide
/-- The decoder's ports of `sw` and of an illegal word (R95). -/
theorem test_ports : decoderPorts 0xAF8B0002 =
      { valid := true, mnemonic := some .sw, rs := some 28, rt := some 11, imm := some 2 } ∧
    decoderPorts 0 = { valid := false } := by decide
/-- The register file's read side (R25). -/
theorem test_register_file_read :
    ((machine 4 1 [] [(2, 5), (8, 9)]).regFileRead { raIdx := 8 }).raData = 9 ∧
    ((machine 4 1 [] [(2, 5), (8, 9)]).regFileRead { raIdx := 8 }).v0Out = 5 := by decide

/-! ## Witnesses: for every obligation with hypotheses, states and operands that meet them, clause by clause at the ends of the
ranges. An obligation without hypotheses has none here. -/

/-- The small machine of most witnesses: `N = 5`, `M = 3`, at index 1. -/
def five : State := machine 5 1 [7, 8, 9] [(8, 1), (9, 2)]

/-- An instruction runs to a next state that is not faulted. -/
def commits (i : Instr) (s : State) : Bool := gives (exec i s) fun t => !t.mode.isFaulted

/-- An invariant state in the middle of a run. -/
theorem five_inv : five.Inv :=
  ⟨by decide, by decide, by change 1 < 5 ∧ 0 < 5; decide, by decide, fun v hv => absurd (show v ∈ ([] : List Int) from hv) List.not_mem_nil⟩

/-- A machine whose next step is its last: `N = 5`, four steps counted, at the last index, with an `addiu` there. -/
def lastStep : State := { machine 5 4 [7, 8, 9] [] with steps := 4, imem := List.replicate 5 (.addiu 8 0 3) }

theorem lastStep_inv : lastStep.Inv :=
  ⟨by decide, by decide, by change 4 < 5 ∧ 4 < 5; decide, by decide, fun v hv => absurd (show v ∈ ([] : List Int) from hv) List.not_mem_nil⟩

theorem witness_ReadOfRegisterZeroIsZero :
    (31 : Reg) ≠ 0 ∧ ∃ t, lastStep.x[0] = 0 ∧ step lastStep = .next t := ⟨by decide, _, by decide, rfl⟩

theorem witness_LoadEstablishesResetState :
    (∀ l ∈ [({ program := [0x24080003, 0x0000000C], data := [5] } : Launch), { program := [], data := [] }],
      l.wellFormed = true ∧ ∀ w ∈ l.program, ∃ i, decode w = .ok i) := by
  intro l hl
  simp only [List.mem_cons, List.not_mem_nil, or_false] at hl
  rcases hl with rfl | rfl
  · refine ⟨by decide, fun w hw => ?_⟩
    simp only [List.mem_cons, List.not_mem_nil, or_false] at hw
    rcases hw with rfl | rfl
    · exact ⟨.addiu 8 0 3, by decide⟩
    · exact ⟨.syscall, by decide⟩
  · exact ⟨by decide, fun w hw => absurd hw (by simp)⟩

theorem witness_EmptyProgramHaltsAtLoad :
    ({ program := [], data := [5] } : Launch).wellFormed = true ∧ ({ program := [], data := [5] } : Launch).program = [] := by
  decide

/-- The first word illegal, and only the last. -/
theorem witness_DecodeErrorAbortsLoad :
    ({ program := [0x0000000D, 0], data := [] } : Launch).wellFormed = true ∧ (∃ e, decode 0x0000000D = .error e) ∧
    ({ program := [0x0000000C, 0x0C000000], data := [] } : Launch).wellFormed = true ∧ (∃ i, decode 0x0000000C = .ok i) ∧
    ∃ e, decode 0x0C000000 = .error e :=
  ⟨by decide, ⟨.unsupportedFunction 13, by decide⟩, by decide, ⟨.syscall, by decide⟩, .unsupportedOpcode 3, by decide⟩

/-- A launch of any size. -/
theorem launch_of_size (n m : Nat) : ∃ l : Launch, l.program.length = n ∧ l.data.length = m :=
  ⟨⟨List.replicate n 0, List.replicate m 0, {}, []⟩, List.length_replicate, List.length_replicate⟩

/-- A launch one word above the bound on `N`, one above the bound on `N + M`, and one within both. -/
theorem witness_LaunchBeyondBoundsIsRefused :
    (∃ l : Launch, 2 ^ 31 - 1 < l.program.length) ∧
    (∃ l : Launch, l.program.length = 0 ∧ 2 ^ 31 - 2 ^ 15 < l.program.length + l.data.length) ∧
    ∃ t, load { program := [0x0000000C], data := [] } = .next t :=
  ⟨(launch_of_size (2 ^ 31) 0).imp fun l h => by rw [h.1]; decide,
    (launch_of_size 0 (2 ^ 31 - 2 ^ 15 + 1)).imp fun l h => by rw [h.1, h.2]; decide, _, rfl⟩

theorem witness_TerminalStatesTakeNoStep :
    State.reset.mode = .halted ∧ (five.enterFaulted .divideByZero 1).mode = .faulted .divideByZero 1 := by decide

theorem witness_StepExecutesTheDecodedInstruction :
    (five.mode = .running 1 ∧ decode 0x0000000C = .ok .syscall ∧ five.imem[1]? = some .syscall) ∧
    ∃ t, load { program := [0x24080003, 0x0000000C], data := [] } = .next t ∧ t.mode.isFaulted = false ∧
      (t.setMode (.running 1)).imem = t.imem ∧ (t.setMode (.running 1)).mode = .running 1 :=
  ⟨by decide, _, rfl, rfl, rfl, rfl⟩

/-- From reset, in a running machine, and in a running machine at an index outside its program. -/
theorem witness_PlacedWordIsTheNextInstruction :
    decodeTableWord 32 0x01090018 = some (.mult 8 9) ∧ decode 0x01090018 = .ok (.mult 8 9) ∧
    (State.reset.withFetchWord 32 0x01090018).mode = .running 0 ∧ (five.withFetchWord 32 0x01090018).mode = .running 1 ∧
    ((machine 5 5 [] []).withFetchWord 32 0x01090018).mode = .running 0 := by decide

/-- The bound's and the listed sets' edges: opcodes 1, 8, 10, 34, 36, 42, 44 and 63 and an unsupported function code are
illegal; 9, 35 and 43 are not. -/
theorem witness_IllegalEncodingsAreExactlyTheListedSets :
    (∀ op ∈ [1, 3, 6, 7, 8, 10, 34, 36, 42, 44, 63],
      decode (fieldAt (BitVec.ofNat 6 op) 26) = .error (.unsupportedOpcode (BitVec.ofNat 6 op))) ∧
    (∀ op ∈ [9, 35, 43], (decoderPorts (fieldAt (BitVec.ofNat 6 op) 26)).valid = true) ∧
    decode 0x0000000B = .error (.unsupportedFunction 11) ∧
    ({ program := [0x0000000C, 0x00000000], data := [] } : Launch).wellFormed = true ∧
    ∃ w ∈ ({ program := [0x0000000C, 0x00000000], data := [] } : Launch).program, ∃ e, decode w = .error e :=
  ⟨by decide, by decide, by decide, by decide, 0, by decide, .unsupportedFunction 0, by decide⟩

/-- Both sides of the equivalence, on a word with ignored bits set. -/
theorem witness_DecodeIsExactlyTheEncodingUpToIgnoredBits :
    decode 0x03E0F810 = .ok (.mfhi 31) ∧ 0x03E0F810 &&& ~~~ignoredBits (.mfhi 31) = encode (.mfhi 31) := by decide

/-- An illegal word, and a word of each set of roles, whose ports are written out from R90. -/
theorem witness_DecoderPortsCarryTheFields : (∃ e, decode 0 = .error e) ∧ decode 0x03FFFFCC = .ok .syscall ∧
    decoderPorts 0x03FFFFCC = { valid := true, mnemonic := some .syscall } ∧
    decoderPorts 0x03E0F810 = { valid := true, mnemonic := some .mfhi, rd := some 31 } ∧
    decoderPorts 0x0109001A = { valid := true, mnemonic := some .div, rs := some 8, rt := some 9 } ∧
    decoderPorts 0x010957E1 = { valid := true, mnemonic := some .addu, rs := some 8, rt := some 9, rd := some 10 } ∧
    decoderPorts 0x0BFFFFFF = { valid := true, mnemonic := some .j, target := some 67108863 } ∧
    decoderPorts 0x8FFFFFFF = { valid := true, mnemonic := some .lw, rs := some 31, rt := some 31, imm := some 0xFFFF } :=
  ⟨⟨.unsupportedFunction 0, by decide⟩, by decide⟩

theorem witness_SyscallOnePrints :
    (machine 5 1 [] [(2, 1), (4, -5)]).mode = .running 1 ∧ sint ((machine 5 1 [] [(2, 1), (4, -5)]).readReg 2) = 1 ∧
    0x03FFFFCC &&& ~~~(0x03FFFFC0 : Word) = 0x0000000C := by decide

/-- A fixed answer, none fixed, and a host that never answers. -/
theorem witness_SyscallFiveReadsTheHost :
    (machine 5 1 [] [(2, 5)]).mode = .running 1 ∧ sint ((machine 5 1 [] [(2, 5)]).readReg 2) = 5 ∧
    (machine 5 1 [] [(2, 5)]).input = [] ∧
    ({ machine 5 1 [] [(2, 5)] with input := [.value 0x80000000] } : State).input = .value 0x80000000 :: [] ∧
    ({ machine 5 1 [] [(2, 5)] with input := [.never, .value 1] } : State).input = .never :: [.value 1] := by decide

theorem witness_SyscallTenHalts :
    (machine 5 1 [] [(2, 10)]).mode = .running 1 ∧ sint ((machine 5 1 [] [(2, 10)]).readReg 2) = 10 := by decide

/-- The machine about to run a `syscall` with a given code. -/
def callWith (code : Word) : State := machine 5 1 [] [(2, code)]

/-- The code is none of 1, 5 and 10, whole. -/
def isOther (code : Word) : Prop :=
  (callWith code).mode = .running 1 ∧ sint ((callWith code).readReg 2) ≠ 1 ∧ sint ((callWith code).readReg 2) ≠ 5 ∧
    sint ((callWith code).readReg 2) ≠ 10

/-- Codes beside the supported ones, and the ends of the range. -/
theorem witness_SyscallOtherCodesFault : isOther (-1) ∧ isOther 0 ∧ isOther 2 ∧ isOther 11 ∧ isOther 0x7FFFFFFF ∧
    isOther 0x80000000 := by unfold isOther; decide

/-- Both clauses of `mfhi`: they run on this state, at the ends of the register range. -/
theorem witness_MfhiCopiesHi : five.mode = .running 1 ∧ commits (.mfhi 1) five ∧ commits (.mfhi 31) five ∧
    faults (exec (.mfhi 0) five) five .zeroRegisterWrite 1 := by decide

theorem witness_MfloCopiesLo : five.mode = .running 1 ∧ commits (.mflo 1) five ∧ commits (.mflo 31) five ∧
    faults (exec (.mflo 0) five) five .zeroRegisterWrite 1 := by decide

theorem witness_MultSplitsTheSignedProduct : five.mode = .running 1 ∧ commits (.mult 8 9) five ∧ commits (.mult 0 31) five := by
  decide

theorem witness_MultProductIsExact : ∃ t, exec (.mult 8 9) (machine 5 1 [] [(8, 0x80000000), (9, 0x7FFFFFFF)]) = .next t :=
  ⟨_, rfl⟩

/-- The machine about to divide two words. -/
def dividing (a b : Word) : State := machine 5 1 [] [(8, a), (9, b)]

/-- Operands next to the overflow case on either side, and the case itself. -/
theorem witness_DivWritesQuotientAndRemainder :
    (dividing 0x80000000 (-2)).mode = .running 1 ∧ commits (.div 8 9) (dividing 0x80000000 (-2)) ∧
    commits (.div 8 9) (dividing 0x80000001 (-1)) ∧
    sint ((dividing 0x80000000 (-1)).readReg 8) = -2 ^ 31 ∧ sint ((dividing 0x80000000 (-1)).readReg 9) = -1 ∧
    faults (exec (.div 8 9) (dividing 0x80000000 (-1))) (dividing 0x80000000 (-1)) .divideOverflow 1 := by decide

/-- A zero divisor, a zero dividend, both. -/
theorem witness_DivByOrOfZeroFaults :
    five.mode = .running 1 ∧ five.readReg 10 = 0 ∧ five.readReg 8 ≠ 0 ∧
    faults (exec (.div 8 10) five) five .divideByZero 1 ∧ faults (exec (.div 10 8) five) five .divideByZero 1 ∧
    faults (exec (.div 10 10) five) five .divideByZero 1 := by decide

theorem witness_DivResultsObeyTheDivisionLaw :
    ∃ t, exec (.div 8 9) (machine 5 1 [] [(8, -7), (9, 2)]) = .next t ∧ t.mode.isFaulted = false := ⟨_, rfl, rfl⟩

theorem witness_AdduAddsWithWraparound : five.mode = .running 1 ∧ commits (.addu 31 8 9) five ∧ commits (.addu 8 8 8) five ∧
    faults (exec (.addu 0 8 9) five) five .zeroRegisterWrite 1 := by decide

theorem witness_SubuSubtractsWithWraparound : five.mode = .running 1 ∧ commits (.subu 31 8 9) five ∧
    commits (.subu 1 8 9) five ∧ faults (exec (.subu 0 8 9) five) five .zeroRegisterWrite 1 := by decide

theorem witness_AndIsBitwise : five.mode = .running 1 ∧ commits (.and 31 8 9) five ∧ commits (.and 1 8 9) five ∧
    faults (exec (.and 0 8 9) five) five .zeroRegisterWrite 1 := by decide

theorem witness_OrIsBitwise : five.mode = .running 1 ∧ commits (.or 31 8 9) five ∧ commits (.or 1 8 9) five ∧
    faults (exec (.or 0 8 9) five) five .zeroRegisterWrite 1 := by decide

theorem witness_SltComparesSigned : five.mode = .running 1 ∧ commits (.slt 31 8 9) five ∧ commits (.slt 1 9 8) five ∧
    faults (exec (.slt 0 8 9) five) five .zeroRegisterWrite 1 := by decide

theorem witness_AddiuAddsSignExtendedImmediate : five.mode = .running 1 ∧ commits (.addiu 31 8 0x8000) five ∧
    commits (.addiu 1 8 0x7FFF) five ∧ faults (exec (.addiu 0 8 1) five) five .zeroRegisterWrite 1 := by decide

/-- Targets 0, `N - 1`, `N`, the greatest. -/
theorem witness_JumpGoesToTheAbsoluteIndex : five.mode = .running 1 ∧ (0 : Target26).toNat < five.imem.length ∧
    (4 : Target26).toNat < five.imem.length ∧ five.imem.length ≤ (5 : Target26).toNat ∧
    five.imem.length ≤ (0x3FFFFFF : Target26).toNat := by decide

/-- From index 1 of five: targets 0, 4 taken; -1, 5 outside; untaken with the parameter false, with it true and the target at
0 and 4, with it true and the target at -1 and 5. -/
theorem witness_BeqBranchesWhenEqual : five.mode = .running 1 ∧ five.readReg 8 = five.readReg 8 ∧
    five.readReg 8 ≠ five.readReg 9 ∧ (1 : Int) + (-1 : Imm16).toInt = 0 ∧ (1 : Int) + (3 : Imm16).toInt = 4 ∧
    (1 : Int) + (-2 : Imm16).toInt = -1 ∧ (1 : Int) + (4 : Imm16).toInt = five.imem.length ∧
    five.config.checkUntakenBranchTarget = false ∧
    ({ five with config.checkUntakenBranchTarget := true } : State).config.checkUntakenBranchTarget = true ∧
    commits (.beq 8 8 3) five ∧ commits (.beq 8 9 4) five := by decide

theorem witness_BneBranchesWhenNotEqual : five.mode = .running 1 ∧ five.readReg 8 = five.readReg 8 ∧
    five.readReg 8 ≠ five.readReg 9 ∧ (1 : Int) + (-1 : Imm16).toInt = 0 ∧ (1 : Int) + (3 : Imm16).toInt = 4 ∧
    (1 : Int) + (-2 : Imm16).toInt = -1 ∧ (1 : Int) + (4 : Imm16).toInt = five.imem.length ∧
    five.config.checkUntakenBranchTarget = false ∧
    ({ five with config.checkUntakenBranchTarget := true } : State).config.checkUntakenBranchTarget = true ∧
    commits (.bne 8 9 3) five ∧ commits (.bne 8 8 4) five := by decide

/-- Effective indices 0, `M - 1`, -1 and `M`, through `$gp`. -/
theorem witness_LwLoadsTheWordAtTheEffectiveIndex : five.mode = .running 1 ∧
    (0 : Imm16).toInt + sint (five.readReg 28) - five.imem.length = 0 ∧
    (2 : Imm16).toInt + sint (five.readReg 28) - five.imem.length = 2 ∧ five.dmem.size = 3 ∧
    (-1 : Imm16).toInt + sint (five.readReg 28) - five.imem.length = -1 ∧
    (3 : Imm16).toInt + sint (five.readReg 28) - five.imem.length = five.dmem.size ∧
    commits (.lw 31 28 0) five ∧ commits (.lw 1 28 2) five ∧
    faults (exec (.lw 0 28 2) five) five .zeroRegisterWrite 1 ∧
    faults (exec (.lw 0 28 3) five) five .invalidDataAddress 1 := by decide

theorem witness_SwStoresTheWordAtTheEffectiveIndex : five.mode = .running 1 ∧ five.dmem.wf = true ∧
    (0 : Imm16).toInt + sint (five.readReg 28) - five.imem.length = 0 ∧
    (2 : Imm16).toInt + sint (five.readReg 28) - five.imem.length = 2 ∧ five.dmem.size = 3 ∧
    (-1 : Imm16).toInt + sint (five.readReg 28) - five.imem.length = -1 ∧
    (3 : Imm16).toInt + sint (five.readReg 28) - five.imem.length = five.dmem.size ∧
    commits (.sw 31 28 0) five ∧ commits (.sw 0 28 2) five ∧
    faults (exec (.sw 8 28 3) five) five .invalidDataAddress 1 := by decide

theorem witness_GpOffsetReachesTheDataWord : five.mode = .running 1 ∧
    launchSizesOk five.imem.length five.dmem.size = true ∧ five.readReg 28 = bv32 five.imem.length ∧
    (0 : Imm16).toInt = (0 : Nat) ∧ (2 : Imm16).toInt = (2 : Nat) ∧ 2 < five.dmem.size ∧ (31 : Reg) ≠ 0 := by decide

/-- The same index, and another one. -/
theorem witness_StoreThenLoadReturnsTheWord :
    five.Inv ∧ ∃ t u u', exec (.sw 8 28 2) five = .next t ∧ t.mode.isFaulted = false ∧
      exec (.lw 10 28 2) t = .next u ∧ u.mode.isFaulted = false ∧ t.effectiveIndex 28 2 = five.effectiveIndex 28 2 ∧
      exec (.lw 10 28 0) t = .next u' ∧ u'.mode.isFaulted = false ∧ t.effectiveIndex 28 0 ≠ five.effectiveIndex 28 2 :=
  ⟨five_inv, _, _, _, rfl, rfl, rfl, rfl, rfl, rfl, rfl, by decide⟩

/-- Each implication: `lw` at the indices -1 and `M` beside `[0, M)`, `lw` at 0 and `M - 1`, and an instruction that is no `lw`. -/
theorem witness_WriteToRegisterZeroFaults : five.mode = .running 1 ∧ destinationOf (.lw 0 28 3) = some 0 ∧
    five.effectiveIndex 28 (-1) < 0 ∧ five.dmem.size ≤ five.effectiveIndex 28 3 ∧
    faults (exec (.lw 0 28 3) five) five .invalidDataAddress 1 ∧
    five.effectiveIndex 28 0 = 0 ∧ five.effectiveIndex 28 2 + 1 = five.dmem.size ∧
    faults (exec (.lw 0 28 2) five) five .zeroRegisterWrite 1 ∧ destinationOf (.slt 0 8 9) = some 0 ∧
    faults (exec (.slt 0 8 9) five) five .zeroRegisterWrite 1 := by decide

/-- A machine whose next step faults: a `syscall` with code 0. -/
theorem witness_FaultingStepCommitsNothing : ∃ t, step five = .next t ∧ t.mode.isFaulted = true := ⟨_, rfl, rfl⟩

theorem witness_FaultReasonsPerInstruction :
    ∃ t, exec (.div 8 10) five = .next t ∧ t.mode = .faulted .divideByZero 1 := ⟨_, rfl, rfl⟩

/-- A machine that steps, and one that waits. -/
theorem witness_RunningMachineAlwaysSteps : five.mode = .running 1 ∧
    ({ machine 5 1 [] [(2, 5)] with input := [.never] } : State).mode = .running 1 ∧
    ({ machine 5 1 [] [(2, 5)] with input := [.never] } : State).input.head? = some .never := by decide

theorem witness_StepCounterCountsCommittedSteps :
    (∃ t, step five = .next t ∧ t.mode.isFaulted = true) ∧ ∃ t, step lastStep = .next t ∧ t.mode.isFaulted = false :=
  ⟨⟨_, rfl, rfl⟩, _, rfl, rfl⟩

/-- One count lets the machine go on, the other ends it; a fault is the same at both. -/
theorem witness_StepCountIsInvisibleToPrograms :
    gives (exec (.addiu 8 0 3) five) (fun t => t.mode = .running 2) ∧
    gives (exec (.addiu 8 0 3) { five with steps := 4 }) (fun t => t.mode = .halted) ∧
    gives (exec (.div 8 10) { five with steps := 4 }) (fun t => t.mode = .faulted .divideByZero 1 && t.steps = 4) := by decide

theorem witness_StepBoundHaltsTheMachine :
    (∃ t, step lastStep = .next t ∧ t.mode.isFaulted = false ∧ t.steps = t.imem.length) ∧
    lastStep.Inv ∧ ∃ t, step lastStep = .next t :=
  ⟨⟨_, rfl, rfl, rfl⟩, lastStep_inv, _, rfl⟩

/-- An untaken branch and a `syscall` that prints, at the last index with steps to spare; and the same `syscall` at index 0, which
commits the same effects. -/
theorem witness_SequentialFallOffHalts :
    (machine 5 4 [] [(2, 1)]).mode = .running 4 ∧ 4 + 1 = (machine 5 4 [] [(2, 1)]).imem.length ∧
    gives (exec .syscall (machine 5 4 [] [(2, 1), (4, 9)])) (fun t => t.mode = .halted && t.out = [9]) ∧
    gives (exec .syscall { machine 5 4 [] [(2, 1), (4, 9)] with mode := .running 0 })
      (fun u => u.mode = .running 1 && u.out = [9]) ∧
    takesBranch (.bne 8 0 1) (machine 5 4 [] [(2, 1)]) = false ∧ commits (.bne 8 0 1) (machine 5 4 [] [(2, 1)]) := by decide

/-- Every arm of the statement reached with a running machine after it. -/
theorem witness_NextPcIsSequentialOrTheTarget : five.mode = .running 1 ∧
    gives (exec (.j 4) five) (fun t => t.mode = .running 4) ∧ gives (exec (.beq 8 8 3) five) (fun t => t.mode = .running 4) ∧
    gives (exec (.beq 8 9 3) five) (fun t => t.mode = .running 2) ∧ gives (exec (.bne 8 9 (-1)) five) (fun t => t.mode = .running 0) ∧
    gives (exec (.bne 8 8 (-1)) five) (fun t => t.mode = .running 2) ∧ gives (exec (.mult 8 9) five) (fun t => t.mode = .running 2) := by
  decide

theorem witness_ProgramAndParametersNeverChange : ∃ t, step lastStep = .next t := ⟨_, rfl⟩

/-- A register that is not the destination, and the register of `syscall` under a code other than 5. -/
theorem witness_GeneralRegisterFrame :
    (∃ t, exec (.addiu 8 0 3) five = .next t) ∧ destinationOf (.addiu 8 0 3) ≠ some 9 ∧
    (∃ t, exec .syscall (machine 5 1 [] [(2, 1)]) = .next t) ∧ sint ((machine 5 1 [] [(2, 1)]).readReg 2) ≠ 5 :=
  ⟨⟨_, rfl⟩, by decide, ⟨_, rfl⟩, by decide⟩

/-- Each clause: an instruction that is no `mult` or `div`, a `mult` and a `div` that commit, a `div` that faults, a good load. -/
theorem witness_AccumulatorsBelongToMultAndDiv :
    (∃ t, exec (.addiu 8 0 3) five = .next t) ∧ commits (.mult 8 9) five ∧ commits (.div 8 9) five ∧
    (∃ t, exec (.div 8 10) five = .next t ∧ t.mode.isFaulted = true) ∧
    ∃ t, load { program := [0x0000000C], data := [] } = .next t ∧ t.mode.isFaulted = false :=
  ⟨⟨_, rfl⟩, by decide, by decide, ⟨_, rfl, rfl⟩, _, rfl, rfl⟩

/-- A form that stores nothing, and a store with an index that is not the stored one. -/
theorem witness_DataMemoryFrame :
    (∃ t, exec (.lw 8 28 2) five = .next t) ∧ storeIndexOf (.lw 8 28 2) five ≠ some ((2 : Nat) : Int) ∧
    (∃ t, exec (.sw 8 28 2) five = .next t) ∧ storeIndexOf (.sw 8 28 2) five ≠ some ((0 : Nat) : Int) ∧
    storeIndexOf (.sw 8 28 2) five = some ((2 : Nat) : Int) :=
  ⟨⟨_, rfl⟩, by decide, ⟨_, rfl⟩, by decide, by decide⟩

/-- No stream touched, one value emitted, one answer taken. -/
theorem witness_OutputAndInputFrame :
    gives (exec (.addiu 8 0 3) five) (fun t => t.out = [] && t.drawn = 0) ∧
    gives (exec .syscall (machine 5 1 [] [(2, 1), (4, 9)])) (fun t => t.out = [9] && t.drawn = 0) ∧
    gives (exec .syscall { machine 5 1 [] [(2, 5)] with input := [.value 3, .value 4] })
      (fun t => t.input = [.value 4] && t.drawn = 1) := by decide

theorem witness_OneRegisterFileCommitPerStep :
    (∃ t, exec (.mult 8 9) five = .next t ∧ t.mode.isFaulted = false) ∧
    (∃ t, exec (.addiu 31 0 3) five = .next t ∧ t.mode.isFaulted = false) ∧
    ({ wEn := true, wIdx := 0 } : RegFileInputs).wEn = true := ⟨⟨_, rfl, rfl⟩, ⟨_, rfl, rfl⟩, rfl⟩

/-- A good load, a decode fault at load, and the empty load. -/
theorem witness_InvariantHoldsAfterEveryLoad :
    (∃ t, load { program := [0x0000000C], data := [5, 0, 6] } = .next t) ∧
    (∃ t, load { program := [0x0000000C, 0], data := [5] } = .next t) ∧ ∃ t, load { program := [], data := [] } = .next t :=
  ⟨⟨_, rfl⟩, ⟨_, rfl⟩, _, rfl⟩

/-- A step that halts and a step that faults, each from a state that meets the invariant. -/
theorem witness_EveryStepKeepsTheInvariant :
    (lastStep.Inv ∧ ∃ t, step lastStep = .next t ∧ t.mode = .halted) ∧ five.Inv ∧ ∃ t, step five = .next t :=
  ⟨⟨lastStep_inv, _, rfl, rfl⟩, five_inv, _, rfl⟩

theorem witness_EveryRunEndsWithinTheStepLimit : five.Inv ∧ lastStep.Inv := ⟨five_inv, lastStep_inv⟩

theorem witness_ExitStatusTellsFaultsApart :
    (five.enterFaulted .divideByZero 1).observe.isSome = true ∧ State.reset.observe.isSome = true ∧ five.observe.isSome = false :=
  ⟨rfl, rfl, rfl⟩

/-- A good load, a committed step and a faulting step. -/
theorem witness_TraceShowsTheCommittedStep :
    (∃ t, load { program := [0x0000000C], data := [5, 0, 6] } = .next t ∧ t.mode.isFaulted = false) ∧
    (lastStep.mode = .running 4 ∧ ∃ t, step lastStep = .next t ∧ t.mode.isFaulted = false) ∧
    five.mode = .running 1 ∧ ∃ t, step five = .next t ∧ t.mode.isFaulted = true :=
  ⟨⟨_, rfl, rfl⟩, ⟨rfl, _, rfl, rfl⟩, rfl, _, rfl, rfl⟩

/-- The snapshot's last register entry and the data snapshot's ends. -/
theorem test_snapshot : five.snapshot.x[28]? = some 5 ∧ five.snapshot.x[31]? = some 0 ∧ five.snapshot.x[32]? = none ∧
    five.dmem.words[0]? = some 7 ∧ five.dmem.words[2]? = some 9 := by decide

/-- A run that halted, one that faulted in a step, and one whose load met an illegal word, of which nothing but the terminal state
and the exit status is observed (R180). -/
theorem witness_ObservationHoldsTheFinalState :
    (∃ o, (five.setMode .halted).observe = some o ∧ o.exitStatus = 0 ∧ ∃ r, o.result = some r ∧ r.data = [7, 8, 9]) ∧
    (∃ o, (five.enterFaulted .divideByZero 1).observe = some o ∧ o.result.isSome = true) ∧
    ∃ o, (decodeFaultState { program := [0], data := [5] } 1).observe = some o ∧ o.result = none ∧
      o.terminal = .faulted .decodeError 1 :=
  ⟨⟨_, rfl, rfl, _, rfl, by decide⟩, ⟨_, rfl, rfl⟩, _, rfl, rfl, rfl⟩

/-- A launch with parameters and answers of its own. -/
theorem witness_LoadCarriesTheParametersAndAnswers :
    ∃ t, load ⟨[0x0000000C], [], { checkUntakenBranchTarget := true }, [.value 3, .never]⟩ = .next t ∧
      t.mode.isFaulted = false := ⟨_, rfl, rfl⟩

end Sys2Proof.Tests
end

section
/-! SUPPORT. The launch bounds and what a load carries over (00_scope.md R6), and truncating division: the model's `tdiv` and
`trem` are the library's, so they obey the division law, and their results fit a word (00_scope.md R9, 41_muldiv.md R123). -/

namespace Sys2Proof.Machine

/-! ## The launch -/

/-- The loader's own refusal, exactly when the sizes are not accepted (93_implementation_defined.md U11). -/
theorem load_refused_iff {l : Launch} : load l = .refused .launchTooLarge ↔ l.wellFormed = false := by
  unfold load
  cases l.wellFormed with
  | false => simp
  | true =>
    rw [if_pos rfl]
    split <;> simp

/-- The bounds D23 on `N` and D7 on `N + M`, as inequalities. -/
theorem wellFormed_eq_false_iff {l : Launch} : l.wellFormed = false ↔
    2 ^ 31 - 1 < l.program.length ∨ 2 ^ 31 - 2 ^ 15 < l.program.length + l.data.length := by
  simp only [Launch.wellFormed, launchSizesOk, Bool.and_eq_false_iff, decide_eq_false_iff_not, Nat.not_le]
  rfl

@[simp] theorem decodeFaultState_mode (l : Launch) (k : Nat) : (decodeFaultState l k).mode = .faulted .decodeError k := rfl

/-- A load that does not fault establishes the reset state of its decoded program (70_reset_and_hazards.md R181). -/
theorem load_not_faulted {l : Launch} {t : State} (h : load l = .next t) (ht : t.mode.isFaulted = false) :
    ∃ imem, decodeProgram l.program = .ok imem ∧ t = loadedState l.config imem (Memory.ofWords l.data) l.input := by
  obtain ⟨-, ⟨k, e, -, rfl⟩ | hloaded⟩ := load_cases h
  · simp [Mode.isFaulted] at ht
  · exact hloaded

/-! ## Words -/

/-- A signed 32-bit value survives being stored in a word (00_scope.md R8). -/
theorem sint_bv32 {n : Int} (hlo : -2 ^ 31 ≤ n) (hhi : n < 2 ^ 31) : sint (bv32 n) = n :=
  BitVec.toInt_ofInt_eq_self (by decide) hlo hhi

theorem sint_range (v : Word) : -2 ^ 31 ≤ sint v ∧ sint v < 2 ^ 31 := ⟨BitVec.le_toInt v, BitVec.toInt_lt⟩

/-! ## Truncating division -/

/-- R9's sign and magnitude form is the library's division toward zero. -/
theorem tdiv_eq_intTdiv (a b : Int) : tdiv a b = a.tdiv b := by
  rw [← Int.sign_mul_natAbs (a.tdiv b), Int.sign_tdiv, Int.natAbs_tdiv, tdiv, Int.sign_mul]
  split
  · rename_i hlt
    simp [Nat.div_eq_of_lt hlt]
  · rfl

theorem trem_eq_intTmod (a b : Int) : trem a b = a.tmod b := by
  rw [trem, tdiv_eq_intTdiv, Int.tmod_def]

theorem mul_tdiv_add_trem (a b : Int) : b * tdiv a b + trem a b = a := by
  rw [trem, add_sub_cancel]

theorem natAbs_trem_lt (a : Int) {b : Int} (hb : b ≠ 0) : (trem a b).natAbs < b.natAbs := by
  rw [trem_eq_intTmod, Int.natAbs_tmod]
  exact Nat.mod_lt _ (Int.natAbs_pos.mpr hb)

theorem trem_eq_zero_or_sign_eq (a b : Int) : trem a b = 0 ∨ (trem a b).sign = a.sign := by
  rw [trem_eq_intTmod]
  by_cases hdvd : b ∣ a
  · exact .inl (Int.tmod_eq_zero_of_dvd hdvd)
  · exact .inr (by rw [Int.sign_tmod, if_neg hdvd])

/-- The quotient of two signed words fits a word, but for the one pair of R125. The only value to rule out is `2^31`: there the
division law puts the dividend above `2^31 - 1` for a positive divisor, and below `-2^31` for a negative one other than
`-1`. -/
theorem tdiv_range {a b : Int} (hlo : -2 ^ 31 ≤ a) (hhi : a < 2 ^ 31) (hb : b ≠ 0) (hov : ¬(a = -2 ^ 31 ∧ b = -1)) :
    -2 ^ 31 ≤ tdiv a b ∧ tdiv a b < 2 ^ 31 := by
  have hle : (tdiv a b).natAbs ≤ a.natAbs := by
    rw [tdiv_eq_intTdiv]
    exact Int.natAbs_tdiv_le_natAbs a b
  have hne : tdiv a b ≠ 2 ^ 31 := by
    intro hq
    have hlaw := mul_tdiv_add_trem a b
    have hrem := natAbs_trem_lt a hb
    rw [hq] at hlaw
    omega
  omega

/-- The remainder of a division by a signed word fits a word. -/
theorem trem_range (a : Int) {b : Int} (hlo : -2 ^ 31 ≤ b) (hhi : b < 2 ^ 31) (hb : b ≠ 0) :
    -2 ^ 31 ≤ trem a b ∧ trem a b < 2 ^ 31 := by
  have hrem := natAbs_trem_lt a hb
  omega

/-! ## The division of two words -/

/-- A division that does not fault has a non-zero divisor, is not the pair of R125, and gives the words of the quotient and the
remainder. -/
theorem divide_ok {a b : Int} {q r : Word} (h : divide a b = .ok (q, r)) :
    b ≠ 0 ∧ ¬(a = -2 ^ 31 ∧ b = -1) ∧ q = bv32 (tdiv a b) ∧ r = bv32 (trem a b) := by
  unfold divide at h
  split at h
  · cases h
  · rename_i hzero
    split at h
    · cases h
    · rename_i hov
      cases h
      exact ⟨fun hb => hzero (.inl hb), hov, rfl, rfl⟩

/-- A division of two signed words that does not fault stores the exact quotient and remainder. -/
theorem divide_exact {v w q r : Word} (h : divide (sint v) (sint w) = .ok (q, r)) :
    sint w ≠ 0 ∧ sint q = tdiv (sint v) (sint w) ∧ sint r = trem (sint v) (sint w) := by
  obtain ⟨hb, hov, rfl, rfl⟩ := divide_ok h
  obtain ⟨hvlo, hvhi⟩ := sint_range v
  obtain ⟨hwlo, hwhi⟩ := sint_range w
  obtain ⟨hqlo, hqhi⟩ := tdiv_range hvlo hvhi hb hov
  obtain ⟨hrlo, hrhi⟩ := trem_range (sint v) hwlo hwhi hb
  exact ⟨hb, sint_bv32 hqlo hqhi, sint_bv32 hrlo hrhi⟩

/-- A committed `div` leaves in `LO` and `HI` what the division of its operands gave. -/
theorem exec_div_committed {s t : State} {rs rt : Reg} (h : exec (.div rs rt) s = .next t)
    (ht : t.mode.isFaulted = false) : divide (sint (s.readReg rs)) (sint (s.readReg rt)) = .ok (t.lo, t.hi) := by
  obtain ⟨pc, -, -, ⟨reason, rfl, -⟩ | ⟨s', m, heff, -, rfl⟩⟩ := exec_next_cases h
  · simp [Mode.isFaulted] at ht
  · simp only [effectsOf] at heff
    cases hd : divide (sint (s.readReg rs)) (sint (s.readReg rt)) with
    | error reason => rw [hd] at heff; cases heff
    | ok qr => rw [hd] at heff; cases heff; rfl

/-! ## The obligations -/

/-- Settles O24: the committed words are the exact quotient and remainder, which obey the division law. -/
theorem divResultsObeyTheDivisionLaw : Obligations.DivResultsObeyTheDivisionLaw := by
  intro s t rs rt h ht
  obtain ⟨hb, hq, hr⟩ := divide_exact (exec_div_committed h ht)
  rw [hq, hr]
  exact ⟨(mul_tdiv_add_trem _ _).symm, natAbs_trem_lt _ hb, trem_eq_zero_or_sign_eq _ _⟩

/-- Settles O5: the loader refuses exactly the launches that are not well formed. -/
theorem launchBeyondBoundsIsRefused : Obligations.LaunchBeyondBoundsIsRefused :=
  ⟨fun _ => load_refused_iff.trans wellFormed_eq_false_iff, fun _ => rfl⟩

/-- Settles O59: a load that does not fault answers the loaded state, which holds the launch's parameters and answers. -/
theorem loadCarriesTheParametersAndAnswers : Obligations.LoadCarriesTheParametersAndAnswers := by
  intro l t h ht
  obtain ⟨imem, -, rfl⟩ := load_not_faulted h ht
  exact ⟨rfl, rfl, rfl⟩

end Sys2Proof.Machine
end

section
/-! SUPPORT. What a step does, both ways: `exec` answers a next state exactly when it enters a fault or commits classified writes
(10_state.md R38, R39), with the reasons each instruction can fault for (60_exceptions.md R160); and the controller's next pc. -/

namespace Sys2Proof.Machine

variable {i : Instr} {s s' t : State} {pc p : Nat} {reason : FaultReason} {m : Mode}

/-! ## The engine state and the fetch -/

/-- Every instruction asks first whether the machine is running (R29). -/
theorem exec_eq_whenRunning (i : Instr) (s : State) : ∃ k, exec i s = s.whenRunning k := by
  cases i <;> exact ⟨_, rfl⟩

theorem State.whenRunning_of_halted (h : s.mode = .halted) (k : Nat → StepResult) :
    s.whenRunning k = .fault .haltedIsTerminal := by
  simp [State.whenRunning, h]

theorem State.whenRunning_of_faulted {location : Nat} (h : s.mode = .faulted reason location) (k : Nat → StepResult) :
    s.whenRunning k = .fault .faultedIsTerminal := by
  simp [State.whenRunning, h]

/-- A running machine whose pc holds `i` executes `i` (R38). -/
theorem step_of_fetch (hm : s.mode = .running pc) (hf : s.fetch pc = some i) : step s = exec i s := by
  simp [step, State.whenRunning_of_running hm, hf]

/-! ## The reasons of a fault -/

theorem State.writeReg_error {r : Reg} {v : Word} (h : s.writeReg r v = .error reason) : reason = .zeroRegisterWrite := by
  rcases s.writeReg_cases r v with ⟨-, he⟩ | ⟨-, he⟩ <;> rw [he] at h <;> cases h
  rfl

theorem divide_error {a b : Int} (h : divide a b = .error reason) : reason = .divideByZero ∨ reason = .divideOverflow := by
  unfold divide at h
  split at h
  · cases h; exact .inl rfl
  · split at h <;> cases h
    exact .inr rfl

/-- An operand-based fault is one that R160 lists for the instruction. -/
theorem effectsOf_error_mem (h : effectsOf i s = .error reason) : reason ∈ faultReasonsOf i := by
  have register : ∀ {r v}, .zeroRegisterWrite ∈ faultReasonsOf i → s.writeReg r v = .error reason →
      reason ∈ faultReasonsOf i := fun hz he => State.writeReg_error he ▸ hz
  cases i with
  | syscall =>
    simp only [effectsOf] at h
    split at h
    · cases h
    split at h
    · split at h
      · rw [State.writeReg_of_ne _ (by decide)] at h
        cases h
      · cases h
    split at h <;> cases h
    exact List.mem_singleton.mpr rfl
  | div rs rt =>
    simp only [effectsOf] at h
    cases hd : divide (sint (s.readReg rs)) (sint (s.readReg rt)) with
    | error e =>
      rw [hd] at h
      cases h
      rcases divide_error hd with rfl | rfl <;> simp [faultReasonsOf]
    | ok qr => rw [hd] at h; cases h
  | lw rt rs imm =>
    simp only [effectsOf] at h
    rcases s.loadWord_cases (s.effectiveIndex rs imm) with ⟨-, he⟩ | ⟨-, he⟩ <;> rw [he] at h
    · cases h
      simp [faultReasonsOf]
    · exact register (by simp [faultReasonsOf]) h
  | sw rt rs imm =>
    simp only [effectsOf] at h
    rcases s.storeWord_cases (s.effectiveIndex rs imm) (s.readReg rt) with ⟨-, he⟩ | ⟨-, he⟩ <;> rw [he] at h <;> cases h
    exact List.mem_singleton.mpr rfl
  | mult _ _ | j _ | beq _ _ _ | bne _ _ _ => cases h
  | mfhi _ | mflo _ | addu _ _ _ | subu _ _ _ | and _ _ _ | or _ _ _ | slt _ _ _ | addiu _ _ _ =>
    exact register (by simp [faultReasonsOf]) h

/-- A target fault is one that R160 lists for the instruction, and its instruction has no operand-based fault. -/
theorem controlOf_fault {c : Bool} {n : Nat} (h : pcController c n pc (controlOf i s pc) = .fault reason) :
    reason ∈ faultReasonsOf i ∧ effectsOf i s = .ok s := by
  rcases pcController_fault h with ⟨target, hc, rfl⟩ | ⟨⟨target, hc⟩, rfl⟩
  · cases i with
    | j _ => exact ⟨List.mem_singleton.mpr rfl, rfl⟩
    | syscall | beq _ _ _ | bne _ _ _ => simp only [controlOf] at hc; split at hc <;> cases hc
    | _ => cases hc
  · cases i with
    | beq _ _ _ | bne _ _ _ => exact ⟨List.mem_singleton.mpr rfl, rfl⟩
    | syscall => simp only [controlOf] at hc; split at hc <;> rcases hc with hc | hc <;> cases hc
    | _ => rcases hc with hc | hc <;> cases hc

/-- No instruction faults for a reason of the loader or of the input collaborator (60_exceptions.md R160, R165). -/
theorem not_loader_reason (h : reason ∈ faultReasonsOf i) : reason ≠ .decodeError ∧ reason ≠ .malformedInput := by
  have listed : .decodeError ∉ faultReasonsOf i ∧ .malformedInput ∉ faultReasonsOf i := by cases i <;> simp [faultReasonsOf]
  exact ⟨fun e => listed.1 (e ▸ h), fun e => listed.2 (e ▸ h)⟩

/-! ## All a step can do, and when it does it -/

/-- The fault of an instruction at `pc`: of its operands, or of its target. -/
def FaultsAt (i : Instr) (s : State) (pc : Nat) (reason : FaultReason) : Prop :=
  effectsOf i s = .error reason ∨
    pcController s.config.checkUntakenBranchTarget s.instructionCount pc (controlOf i s pc) = .fault reason

theorem FaultsAt.mem (h : FaultsAt i s pc reason) : reason ∈ faultReasonsOf i :=
  h.elim effectsOf_error_mem fun hc => (controlOf_fault hc).1

/-- All an instruction that answers a next state can do: enter the faulted state for a reason of its own, or commit. -/
theorem exec_next (h : exec i s = .next t) :
    ∃ pc, s.mode = .running pc ∧ ¬waitsForever i s ∧
      ((∃ reason, FaultsAt i s pc reason ∧ t = s.enterFaulted reason pc) ∨
        ∃ s' m, effectsOf i s = .ok s' ∧ WritesOf i s s' ∧ CommitsAt s pc (controlOf i s pc) m ∧
          t = s'.countStep.setMode m) := by
  obtain ⟨pc, hm, hw, ⟨reason, ht, hf⟩ | ⟨s', m, he, hc, ht⟩⟩ := exec_next_cases h
  · exact ⟨pc, hm, hw, .inl ⟨reason, hf, ht⟩⟩
  · exact ⟨pc, hm, hw, .inr ⟨s', m, he, effectsOf_ok hw he, hc, ht⟩⟩

/-- A committed step, from what `exec_next` says of it. -/
theorem exec_next_committed (h : exec i s = .next t) (ht : t.mode.isFaulted = false) :
    ∃ pc s' m, s.mode = .running pc ∧ ¬waitsForever i s ∧ effectsOf i s = .ok s' ∧ WritesOf i s s' ∧
      CommitsAt s pc (controlOf i s pc) m ∧ t = s'.countStep.setMode m := by
  obtain ⟨pc, hm, hw, ⟨reason, -, rfl⟩ | ⟨s', m, he, hws, hc, rfl⟩⟩ := exec_next h
  · simp [Mode.isFaulted] at ht
  · exact ⟨pc, s', m, hm, hw, he, hws, hc, rfl⟩

theorem effectsOf_of_waits (hw : waitsForever i s) : effectsOf i s = .ok s := by
  obtain ⟨rfl, h5, hd⟩ := hw
  simp [effectsOf, h5, hd]

/-- A running machine enters the faulted state on a fault of the instruction (R39). -/
theorem exec_of_faultsAt (hm : s.mode = .running pc) (hw : ¬waitsForever i s) (h : FaultsAt i s pc reason) :
    exec i s = .next (s.enterFaulted reason pc) := by
  rw [exec_of_running hm hw]
  rcases h with he | hc
  · rw [he, State.complete_error]
  · simp [(controlOf_fault hc).2, State.complete, hc]

/-- A running machine commits the writes of an instruction where the controller lets it (R38). -/
theorem exec_of_commitsAt (hm : s.mode = .running pc) (hw : ¬waitsForever i s) (he : effectsOf i s = .ok s')
    (hc : CommitsAt s pc (controlOf i s pc) m) : exec i s = .next (s'.countStep.setMode m) := by
  rw [exec_of_running hm hw, he]
  rcases hc with ⟨rfl, hc | ⟨p, hc, hn⟩⟩ | ⟨p, rfl, hc, hn⟩
  · simp [State.complete, hc]
  · simp [State.complete, hc, modeAfter, hn]
  · simp [State.complete, hc, modeAfter, hn]

/-! ## The next pc -/

/-- All the next pcs the controller can give: the next index, if there is one, or the target. -/
theorem pcController_next {c : Bool} {n : Nat} {ctl : Ctl} (h : pcController c n pc ctl = .next p) :
    ((ctl = .seq ∨ ∃ target, ctl = .branchUntaken target) ∧ p = pc + 1 ∧ pc + 1 ≠ n) ∨
    ∃ target : Int, (ctl = .jump target ∨ ctl = .branchTaken target) ∧ (p : Int) = target := by
  have sequential : pcSequential n pc = .next p → p = pc + 1 ∧ pc + 1 ≠ n := by
    unfold pcSequential
    split
    · simp
    · intro h
      cases h
      exact ⟨rfl, ‹_›⟩
  have inTarget : ∀ {target : Int}, inRange target n = true → (target.toNat : Int) = target := fun hr =>
    Int.toNat_of_nonneg (inRange_iff.mp hr).1
  cases ctl with
  | seq => exact .inl ⟨.inl rfl, sequential h⟩
  | halt => cases h
  | jump target =>
    simp only [pcController] at h
    split at h <;> cases h
    exact .inr ⟨target, .inl rfl, inTarget ‹_›⟩
  | branchTaken target =>
    simp only [pcController] at h
    split at h <;> cases h
    exact .inr ⟨target, .inr rfl, inTarget ‹_›⟩
  | branchUntaken target =>
    simp only [pcController] at h
    split at h
    · cases h
    · exact .inl ⟨.inr ⟨target, rfl⟩, sequential h⟩

/-! ## The step count -/

/-- A step counts exactly when it commits (R30, R39). -/
theorem step_steps (h : step s = .next t) :
    (t.mode.isFaulted = true ∧ t.steps = s.steps) ∨ (t.mode.isFaulted = false ∧ t.steps = s.steps + 1) := by
  obtain ⟨_, i, -, -, he⟩ := step_next_cases h
  obtain ⟨_, -, -, ⟨reason, -, rfl⟩ | ⟨s', m, -, hws, hc, rfl⟩⟩ := exec_next he
  · exact .inl ⟨rfl, rfl⟩
  · obtain ⟨-, -, hsteps, -, -⟩ := hws.frame
    exact .inr ⟨hc.not_faulted, by simp [hsteps]⟩

/-- What no step changes (R31, 20_memory.md R70, 70_reset_and_hazards.md R185). -/
theorem step_frame (h : step s = .next t) : t.imem = s.imem ∧ t.dmem.size = s.dmem.size ∧ t.config = s.config := by
  obtain ⟨_, i, -, -, he⟩ := step_next_cases h
  obtain ⟨_, -, -, ⟨reason, -, rfl⟩ | ⟨s', m, -, hws, -, rfl⟩⟩ := exec_next he
  · exact ⟨rfl, rfl, rfl⟩
  · obtain ⟨hconfig, -, -, himem, hsize⟩ := hws.frame
    exact ⟨himem, hsize, hconfig⟩

end Sys2Proof.Machine
end

section
/-! SUPPORT. The state invariant is kept by every step, and a run that keeps it ends: each committed step counts towards `N`
(10_state.md R28, R46, R47). -/

namespace Sys2Proof.Machine

variable {i : Instr} {s s' t : State} {pc : Nat} {reason : FaultReason} {m : Mode}

/-! ## The invariant, part by part -/

theorem State.engineOk_running (h : s.mode = .running pc) :
    s.engineOk ↔ pc < s.imem.length ∧ s.steps < s.imem.length := by
  simp [State.engineOk, h]

/-- A fault at a pc of the program, for a reason of an instruction, is an engine state a run can be in. -/
theorem FaultsAt.engineOk (h : FaultsAt i s pc reason) (hm : s.mode = .running pc) (he : s.engineOk) :
    (s.enterFaulted reason pc).engineOk := by
  obtain ⟨hd, hi⟩ := not_loader_reason h.mem
  obtain ⟨hpc, hsteps⟩ := (State.engineOk_running hm).mp he
  exact .inr ⟨hd, hi, hpc, hsteps⟩

/-- A committed step leaves an engine state a run can be in: the controller stays in the program, and the step bound halts. -/
theorem CommitsAt.engineOk {ctl : Ctl} (h : CommitsAt s pc ctl m) (hm : s.mode = .running pc) (he : s.engineOk)
    (hi : s'.imem = s.imem) (hsteps : s'.steps = s.steps) : (s'.countStep.setMode m).engineOk := by
  obtain ⟨hpc, hlt⟩ := (State.engineOk_running hm).mp he
  rcases h with ⟨rfl, -⟩ | ⟨p, rfl, hp, hne⟩
  · change s'.steps + 1 ≤ s'.imem.length
    rw [hi, hsteps]
    exact hlt
  · rw [State.engineOk_running (State.setMode_mode _ _)]
    have hp' : p < s.imem.length := pcController_next_lt hpc hp
    have hne' : s.steps + 1 ≠ s.imem.length := hne
    simp only [State.setMode_imem, State.countStep_imem, State.setMode_steps, State.countStep_steps, hi, hsteps]
    omega

/-- No instruction writes the storage of register 0 (R22, R23). -/
theorem WritesOf.zero_stored (h : WritesOf i s s') : s'.x[0] = s.x[0] := by
  have other : ∀ {r : Reg} {v : Word}, r ≠ 0 → (s.setX r v).x[0] = s.x[0] := by
    intro r v hr
    have hne : r.toNat ≠ 0 := fun e => hr (BitVec.eq_of_toNat_eq e)
    simp [hne]
  cases h with
  | register r v _ _ h0 => exact other h0
  | input v => exact other (r := Reg.v0) (by decide)
  | _ => rfl

/-- The writes of an instruction keep data memory in canonical form (20_memory.md R60). -/
theorem WritesOf.dmem_wf (h : WritesOf i s s') (hwf : s.dmem.wf = true) : s'.dmem.wf = true := by
  cases h with
  | memory k v _ hk => exact Memory.write_wf hwf hk v
  | _ => exact hwf

/-- Every emitted value is a signed 32-bit value (R33). -/
theorem WritesOf.out_signed (h : WritesOf i s s') (hout : ∀ v ∈ s.out, -2 ^ 31 ≤ v ∧ v < 2 ^ 31) :
    ∀ v ∈ s'.out, -2 ^ 31 ≤ v ∧ v < 2 ^ 31 := by
  cases h with
  | output =>
    intro v hv
    rw [State.emit_out, List.mem_append, List.mem_singleton] at hv
    rcases hv with hv | rfl
    · exact hout v hv
    · exact sint_range _
  | _ => exact hout

/-! ## The invariant, kept -/

theorem FaultsAt.inv (h : FaultsAt i s pc reason) (hm : s.mode = .running pc) (hs : s.Inv) :
    (s.enterFaulted reason pc).Inv :=
  ⟨hs.zero_stored, hs.dmem_wf, h.engineOk hm hs.engine, hs.sizes, hs.out_signed⟩

theorem WritesOf.inv {ctl : Ctl} (h : WritesOf i s s') (hc : CommitsAt s pc ctl m) (hm : s.mode = .running pc)
    (hs : s.Inv) : (s'.countStep.setMode m).Inv := by
  obtain ⟨-, -, hsteps, himem, hsize⟩ := h.frame
  refine ⟨h.zero_stored.trans hs.zero_stored, h.dmem_wf hs.dmem_wf, hc.engineOk hm hs.engine himem hsteps, ?_,
    h.out_signed hs.out_signed⟩
  simpa [himem, hsize] using hs.sizes

theorem exec_inv (hs : s.Inv) (h : exec i s = .next t) : t.Inv := by
  obtain ⟨pc, hm, -, ⟨reason, hf, rfl⟩ | ⟨s', m, -, hw, hc, rfl⟩⟩ := exec_next h
  · exact hf.inv hm hs
  · exact hw.inv hc hm hs

/-- Settles O54: a fault changes the engine state alone, and a commit keeps each part of the invariant. -/
theorem everyStepKeepsTheInvariant : Obligations.EveryStepKeepsTheInvariant := by
  intro s t hs h
  obtain ⟨_, i, -, -, he⟩ := step_next_cases h
  exact exec_inv hs he

/-! ## The end of a run -/

/-- The machine has no step left that the spec enables: it has ended, or it waits for a host that never answers (R47,
70_reset_and_hazards.md R186). -/
def State.AtEnd (s : State) : Prop :=
  s.mode = .halted ∨ s.mode.isFaulted = true ∨ step s = .fault .hostNeverAnswers

/-- An instruction of a running machine answers a next state, or waits forever. -/
theorem exec_next_or_waits (i : Instr) (h : s.mode = .running pc) : (∃ t, exec i s = .next t) ∨ waitsForever i s := by
  by_cases hw : waitsForever i s
  · exact .inr hw
  · rw [exec_of_running h hw]
    exact .inl (State.complete_next _ _ _ _)

/-- Where the invariant holds, a machine that is not at its end takes a step, and has one left of its `N`. -/
theorem State.Inv.atEnd_or_steps (hs : s.Inv) : s.AtEnd ∨ (s.steps < s.imem.length ∧ ∃ t, step s = .next t) := by
  cases hm : s.mode with
  | halted => exact .inl (.inl hm)
  | faulted _ _ => exact .inl (.inr (.inl (by rw [hm]; rfl)))
  | running pc =>
    obtain ⟨hpc, hlt⟩ := (State.engineOk_running hm).mp hs.engine
    have hstep := step_of_fetch hm (List.getElem?_eq_getElem hpc)
    rcases exec_next_or_waits s.imem[pc] hm with ⟨t, ht⟩ | hw
    · exact .inr ⟨hlt, t, hstep.trans ht⟩
    · exact .inl (.inr (.inr (hstep.trans (exec_waitsForever hm hw))))

theorem run_zero (s : State) : core.run 0 s = .next s := rfl

theorem run_succ (k : Nat) (h : step s = .next t) : core.run (k + 1) s = core.run k t := by
  have h' : core.step s = .next t := h
  simp only [Host.Core.run, h']

/-- A run of a state that meets the invariant ends within its remaining steps: each committed step takes one of them, and a
fault ends the run. -/
theorem State.Inv.run_ends {s : State} (hs : s.Inv) :
    ∃ k t, k ≤ s.imem.length - s.steps ∧ core.run k s = .next t ∧ State.AtEnd t := by
  rcases hs.atEnd_or_steps with hend | ⟨hlt, t, ht⟩
  · exact ⟨0, s, Nat.zero_le _, run_zero s, hend⟩
  · rcases step_steps ht with ⟨hfault, -⟩ | ⟨-, hsteps⟩
    · exact ⟨1, t, by omega, (run_succ 0 ht).trans (run_zero t), .inr (.inl hfault)⟩
    · obtain ⟨himem, -, -⟩ := step_frame ht
      have hleft : t.imem.length - t.steps < s.imem.length - s.steps := by rw [himem, hsteps]; omega
      obtain ⟨k, u, hk, hu, hend⟩ := State.Inv.run_ends (everyStepKeepsTheInvariant s t hs ht)
      exact ⟨k + 1, u, by omega, (run_succ k ht).trans hu, hend⟩
termination_by s.imem.length - s.steps

/-- Settles O55, by induction on the steps left (`State.Inv.run_ends`). -/
theorem everyRunEndsWithinTheStepLimit : Obligations.EveryRunEndsWithinTheStepLimit := fun _ hs => hs.run_ends

end Sys2Proof.Machine
end

section
/-! SUPPORT. The obligations on the step counter, the program counter and what an instruction leaves unchanged (10_state.md R22 to
R46): each from `exec_next` and the kinds of writes of `WritesOf`. -/

namespace Sys2Proof.Machine

variable {i : Instr} {s s' t : State} {pc p : Nat} {reason : FaultReason} {m : Mode}

/-! ## When a machine steps -/

/-- The host does not answer exactly when the next answer is that it never will. -/
theorem State.drawInput_eq_none (h : s.drawInput = none) : s.input.head? = some .never := by
  unfold State.drawInput at h
  split at h
  · cases h
  · rename_i hin
    rw [hin]
    rfl
  · cases h

/-- Settles O41: only an instruction that waits forever has no next state. -/
theorem runningMachineAlwaysSteps : Obligations.RunningMachineAlwaysSteps := by
  intro i s pc hm
  refine (exec_next_or_waits i hm).imp id fun hw => ?_
  have hfault := exec_waitsForever hm hw
  obtain ⟨hi, h5, hd⟩ := hw
  exact ⟨hi, h5, State.drawInput_eq_none hd, hfault⟩

/-- Settles O6: every instruction asks first whether the machine is running. -/
theorem terminalStatesTakeNoStep : Obligations.TerminalStatesTakeNoStep := by
  intro s
  refine ⟨fun hm => ⟨State.whenRunning_of_halted hm _, fun i => ?_⟩,
    fun reason location hm => ⟨State.whenRunning_of_faulted hm _, fun i => ?_⟩⟩ <;>
    obtain ⟨k, hk⟩ := exec_eq_whenRunning i s
  · exact hk.trans (State.whenRunning_of_halted hm k)
  · exact hk.trans (State.whenRunning_of_faulted hm k)

/-! ## Register 0 as a destination -/

/-- An instruction whose destination is register 0 faults for it, a load only once its address is in range (R23,
60_exceptions.md R166). -/
theorem effectsOf_zero_destination (hd : destinationOf i = some 0)
    (hlw : ∀ rs imm, i = .lw 0 rs imm → inRange (s.effectiveIndex rs imm) s.dataCount = true) :
    effectsOf i s = .error .zeroRegisterWrite := by
  cases i with
  | syscall | mult _ _ | div _ _ | j _ | beq _ _ _ | bne _ _ _ | sw _ _ _ => cases hd
  | lw rt rs imm =>
    cases hd
    simp only [effectsOf, State.loadWord, hlw rs imm rfl, if_true, Except.bind]
    exact State.writeReg_zero s _
  | _ =>
    cases hd
    exact State.writeReg_zero s _

theorem effectsOf_lw_out_of_range {rt rs : Reg} {imm : Imm16}
    (h : inRange (s.effectiveIndex rs imm) s.dataCount = false) :
    effectsOf (.lw rt rs imm) s = .error .invalidDataAddress := by
  simp [effectsOf, State.loadWord, h, Except.bind]

/-- An operand-based fault is taken (R39). -/
theorem exec_of_effects_error (hm : s.mode = .running pc) (he : effectsOf i s = .error reason) :
    exec i s = .next (s.enterFaulted reason pc) :=
  exec_of_faultsAt hm (fun hw => by rw [effectsOf_of_waits hw] at he; cases he) (.inl he)

/-- Settles O38: the write port faults on register 0, after the address check of a load. -/
theorem writeToRegisterZeroFaults : Obligations.WriteToRegisterZeroFaults := by
  intro i s pc hm hd
  refine ⟨?_, fun hin => exec_of_effects_error hm
    (effectsOf_zero_destination hd fun rs imm hi => inRange_iff.mpr (hin rs imm hi))⟩
  rintro rs imm rfl hout
  refine exec_of_effects_error hm (effectsOf_lw_out_of_range (Bool.eq_false_iff.mpr fun hr => ?_))
  have hin : 0 ≤ s.effectiveIndex rs imm ∧ s.effectiveIndex rs imm < s.dmem.size := inRange_iff.mp hr
  omega

/-! ## The step counter -/

/-- Settles O42. -/
theorem stepCounterCountsCommittedSteps : Obligations.StepCounterCountsCommittedSteps := by
  intro s t h
  rcases step_steps h with ⟨hf, hs⟩ | ⟨hf, hs⟩ <;> simp [hf, hs]

/-- Where the controller lets a step commit does not depend on the step count, but for the cut-off of R46. -/
theorem CommitsAt.with_steps {ctl : Ctl} (h : CommitsAt s pc ctl m) (n : Nat) :
    ∃ m', CommitsAt { s with steps := n } pc ctl m' ∧
      (m' = m ∨ (m' = .halted ∧ m.isRunning = true) ∨ (m = .halted ∧ m'.isRunning = true)) := by
  rcases h with ⟨rfl, hc | ⟨p, hc, -⟩⟩ | ⟨p, rfl, hc, -⟩
  · exact ⟨.halted, .inl ⟨rfl, .inl hc⟩, .inl rfl⟩
  · by_cases hn : n + 1 = s.imem.length
    · exact ⟨.halted, .inl ⟨rfl, .inr ⟨p, hc, hn⟩⟩, .inl rfl⟩
    · exact ⟨.running p, .inr ⟨p, rfl, hc, hn⟩, .inr (.inr ⟨rfl, rfl⟩)⟩
  · by_cases hn : n + 1 = s.imem.length
    · exact ⟨.halted, .inl ⟨rfl, .inr ⟨p, hc, hn⟩⟩, .inr (.inl ⟨rfl, rfl⟩)⟩
    · exact ⟨.running p, .inr ⟨p, rfl, hc, hn⟩, .inl rfl⟩

/-- Settles O43: the writes and the control choice are the same at any step count, which only R46 reads. -/
theorem stepCountIsInvisibleToPrograms : Obligations.StepCountIsInvisibleToPrograms := by
  intro i s t n h
  obtain ⟨pc, hm, hw, hcase⟩ := exec_next h
  have hw' : ¬waitsForever i { s with steps := n } := fun hw' => hw ((waitsForever_with i s s.mode n s.hi s.lo).mp hw')
  have heffects := effectsOf_with_control i s s.mode n
  have hcontrol := controlOf_with i s s.mode n s.hi s.lo pc
  rcases hcase with ⟨reason, hf, rfl⟩ | ⟨s', m, he, hws, hc, rfl⟩
  · have hf' : FaultsAt i { s with steps := n } pc reason :=
      hf.imp (fun he => by rw [heffects, he]; rfl) fun hc => by rw [hcontrol]; exact hc
    exact ⟨.faulted reason pc, n, exec_of_faultsAt hm hw' hf', Nat.add_comm _ _, .inl rfl⟩
  · obtain ⟨m', hc', hmodes⟩ := hc.with_steps n
    obtain ⟨-, -, hsteps, -, -⟩ := hws.frame
    rw [he] at heffects
    rw [← hcontrol] at hc'
    refine ⟨m', n + 1, exec_of_commitsAt (s := { s with steps := n }) hm hw' heffects hc', ?_, hmodes⟩
    simp only [State.setMode_steps, State.countStep_steps, hsteps]
    omega

/-- Settles O44: the engine goes on only with steps left. -/
theorem stepBoundHaltsTheMachine : Obligations.StepBoundHaltsTheMachine := by
  constructor
  · intro s t h ht hN
    obtain ⟨_, i, -, -, he⟩ := step_next_cases h
    obtain ⟨pc, s', m, -, -, -, hws, hc, rfl⟩ := exec_next_committed he ht
    obtain ⟨-, -, hsteps, himem, -⟩ := hws.frame
    rcases hc with ⟨rfl, -⟩ | ⟨p, -, -, hne⟩
    · exact ⟨rfl, rfl⟩
    · rw [State.setMode_steps, State.countStep_steps, State.setMode_imem, State.countStep_imem, hsteps, himem] at hN
      exact absurd hN hne
  · intro s t hs h
    obtain ⟨pc, i, hm, -, -⟩ := step_next_cases h
    obtain ⟨-, hlt⟩ := (State.engineOk_running hm).mp hs.engine
    obtain ⟨himem, -, -⟩ := step_frame h
    rcases step_steps h with ⟨-, hsteps⟩ | ⟨-, hsteps⟩ <;> rw [himem, hsteps] <;> omega

/-! ## The next pc -/

/-- An instruction that is neither `j` nor a taken branch chooses no target. -/
theorem controlOf_no_target (hj : ∀ target, i ≠ .j target) (hb : takesBranch i s = false) (target : Int) :
    controlOf i s pc ≠ .jump target ∧ controlOf i s pc ≠ .branchTaken target := by
  cases i with
  | j target => exact absurd rfl (hj target)
  | beq rs rt imm =>
    have hne : s.readReg rs ≠ s.readReg rt := by simpa [takesBranch] using hb
    simp [controlOf, equalWords, hne]
  | bne rs rt imm =>
    have heq : s.readReg rs = s.readReg rt := by simpa [takesBranch] using hb
    simp [controlOf, equalWords, heq]
  | syscall =>
    simp only [controlOf]
    split <;> simp
  | _ => simp [controlOf]

/-- An instruction that is neither `j` nor a taken branch goes on only to the next index, if there is one (R41, R42). -/
theorem pcController_no_target {c : Bool} {n : Nat} (hj : ∀ target, i ≠ .j target) (hb : takesBranch i s = false)
    (h : pcController c n pc (controlOf i s pc) = .next p) : p = pc + 1 ∧ pc + 1 ≠ n := by
  rcases pcController_next h with ⟨-, hp⟩ | ⟨target, hc | hc, -⟩
  · exact hp
  · exact absurd hc (controlOf_no_target hj hb target).1
  · exact absurd hc (controlOf_no_target hj hb target).2

/-- A jump or a taken branch that goes on is at its target (R43, R44). -/
theorem pcController_target {c : Bool} {n : Nat} {ctl : Ctl} {target : Int} (h : pcController c n pc ctl = .next p)
    (hc : ctl = .jump target ∨ ctl = .branchTaken target) : (p : Int) = target := by
  rcases pcController_next h with ⟨hc', -⟩ | ⟨target', hc', hp⟩
  · rcases hc with rfl | rfl <;> simp at hc'
  · have htarget : target = target' := by rcases hc with rfl | rfl <;> simpa using hc'
    rw [hp, htarget]

/-- Settles O45: at the last index the controller has no next pc, and the writes are the same at every pc. -/
theorem sequentialFallOffHalts : Obligations.SequentialFallOffHalts := by
  intro i s t pc hm hlast h hj hb ht
  obtain ⟨pc', s', m, hm', -, he, hws, hc, rfl⟩ := exec_next_committed h ht
  obtain rfl := Mode.running.inj (hm.symm.trans hm')
  obtain ⟨-, -, hsteps, -, -⟩ := hws.frame
  have hhalt : m = .halted := by
    rcases hc with ⟨rfl, -⟩ | ⟨p, -, hp, -⟩
    · rfl
    · exact absurd hlast (pcController_no_target hj hb hp).2
  subst hhalt
  refine ⟨rfl, congrArg (· + 1) hsteps, fun p u _ hu hfu => ?_⟩
  obtain ⟨_, u', mu, -, -, heu, -, -, rfl⟩ := exec_next_committed hu hfu
  rw [show ({ s with mode := .running p } : State) = { s with mode := .running p, steps := s.steps } from rfl,
    effectsOf_with_control i s (.running p) s.steps, he] at heu
  cases heu
  simp [State.setMode, State.countStep, hsteps]

/-- Settles O46: a running machine is where the controller put it. -/
theorem nextPcIsSequentialOrTheTarget : Obligations.NextPcIsSequentialOrTheTarget := by
  intro i s t pc p hm h ht
  obtain ⟨pc', s', m, hm', -, -, -, hc, rfl⟩ := exec_next_committed h (by rw [ht]; rfl)
  obtain rfl := Mode.running.inj (hm.symm.trans hm')
  have hnext : pcController s.config.checkUntakenBranchTarget s.instructionCount pc (controlOf i s pc) = .next p := by
    rcases hc with ⟨rfl, -⟩ | ⟨q, rfl, hq, -⟩ <;> cases ht
    exact hq
  cases i with
  | j target => exact Int.ofNat_inj.mp (pcController_target hnext (.inl rfl))
  | beq rs rt imm =>
    by_cases heq : s.readReg rs = s.readReg rt <;> simp only [heq, if_true, if_false]
    · exact pcController_target hnext (.inr (by simp [controlOf, equalWords, heq, branchTarget, sext16]))
    · exact (pcController_no_target (by simp) (by simp [takesBranch, heq]) hnext).1
  | bne rs rt imm =>
    by_cases heq : s.readReg rs = s.readReg rt <;> simp only [heq, if_true, if_false]
    · exact (pcController_no_target (by simp) (by simp [takesBranch, heq]) hnext).1
    · exact pcController_target hnext (.inr (by simp [controlOf, equalWords, heq, branchTarget, sext16]))
  | _ => exact (pcController_no_target (by simp) rfl hnext).1

end Sys2Proof.Machine
end

section
/-! SUPPORT. What an instruction leaves unchanged: the program, the registers, the accumulators and the streams (10_state.md
R22 to R25, R33), each a frame of `WritesOf`. -/

namespace Sys2Proof.Machine

variable {i : Instr} {s s' t : State} {pc : Nat} {r : Reg}

/-- Settles O47. -/
theorem programAndParametersNeverChange : Obligations.ProgramAndParametersNeverChange := fun _ _ h => step_frame h

/-! ## The general registers -/

/-- No write reaches a general register but the destination, and that of `syscall` only with code 5. -/
theorem WritesOf.readReg_frame (h : WritesOf i s s')
    (hr : destinationOf i ≠ some r ∨ (i = .syscall ∧ sint (s.readReg Reg.v0) ≠ 5)) : s'.readReg r = s.readReg r := by
  cases h with
  | register r' v hs hd h0 =>
    have hne : r ≠ r' := by
      rintro rfl
      exact hr.elim (absurd hd) fun hsys => absurd hsys.1 hs
    exact State.readReg_setX_other s hne v
  | input v hi hc =>
    have hne : r ≠ Reg.v0 := by
      rintro rfl
      exact hr.elim (fun hd => absurd (congrArg destinationOf hi) hd) fun hsys => absurd hc hsys.2
    exact (State.readReg_setX_other s.takeInput hne v).trans (State.readReg_congr rfl r)
  | _ => exact State.readReg_congr rfl r

/-- Settles O48. -/
theorem generalRegisterFrame : Obligations.GeneralRegisterFrame := by
  intro i s t h r hr
  obtain ⟨_, -, -, ⟨reason, -, rfl⟩ | ⟨s', m, -, hws, -, rfl⟩⟩ := exec_next h
  · exact State.readReg_congr rfl r
  · exact (State.readReg_congr rfl r).trans (hws.readReg_frame hr)

theorem step_zero_stored (h : step s = .next t) : t.x[0] = s.x[0] := by
  obtain ⟨_, i, -, -, he⟩ := step_next_cases h
  obtain ⟨_, -, -, ⟨reason, -, rfl⟩ | ⟨s', m, -, hws, -, rfl⟩⟩ := exec_next he
  · rfl
  · exact hws.zero_stored

/-- Settles O1: the read port answers 0 for register 0, and no step writes its storage. -/
theorem readOfRegisterZeroIsZero : Obligations.ReadOfRegisterZeroIsZero :=
  ⟨State.readReg_zero, fun s r v => State.readReg_zero (s.setX r v), fun s _ => s.readReg_of_ne,
    fun _ _ hs h => (step_zero_stored h).trans hs⟩

/-- The registers an instruction writes are one commit of the register file: one general register that is not 0, or the
accumulators, or none. -/
theorem WritesOf.regFileCommit (h : WritesOf i s s') :
    ∃ (inputs : RegFileInputs) (u : State), s.regFileCommit inputs = .ok u ∧ ¬(inputs.wEn = true ∧ inputs.accWe = true) ∧
      (inputs.wEn = true → inputs.wIdx ≠ 0) ∧ s'.x = u.x ∧ s'.hi = u.hi ∧ s'.lo = u.lo := by
  cases h with
  | register r v _ _ h0 =>
    exact ⟨{ wEn := true, wIdx := r, wData := v }, s.setX r v, s.writeReg_of_ne h0 v, by simp, fun _ => h0, rfl, rfl, rfl⟩
  | input v =>
    have h0 : Reg.v0 ≠ 0 := by decide
    exact ⟨{ wEn := true, wIdx := Reg.v0, wData := v }, s.setX Reg.v0 v, s.writeReg_of_ne h0 v, by simp, fun _ => h0,
      rfl, rfl, rfl⟩
  | accumulators hi lo =>
    exact ⟨{ accWe := true, hiIn := hi, loIn := lo }, s.setHiLo hi lo, rfl, by simp, by simp, rfl, rfl, rfl⟩
  | _ => exact ⟨{}, s, rfl, by simp, by simp, rfl, rfl, rfl⟩

/-- A commit aimed at register 0 signals it, whatever the accumulator port does (R23). -/
theorem State.regFileCommit_zero (s : State) {inputs : RegFileInputs} (hen : inputs.wEn = true) (h0 : inputs.wIdx = 0) :
    s.regFileCommit inputs = .error .zeroRegisterWrite := by
  simp only [State.regFileCommit, hen, if_true, h0]
  exact State.writeReg_zero _ _

/-- Settles O52. -/
theorem oneRegisterFileCommitPerStep : Obligations.OneRegisterFileCommitPerStep := by
  refine ⟨fun i s t h ht => ?_, fun s _ hen h0 => s.regFileCommit_zero hen h0⟩
  obtain ⟨_, s', m, -, -, -, hws, -, rfl⟩ := exec_next_committed h ht
  exact hws.regFileCommit

/-! ## The accumulators -/

/-- Only `mult` and `div` write the accumulators (R24). -/
theorem WritesOf.accumulators_frame (h : WritesOf i s s') (hm : ∀ rs rt, i ≠ .mult rs rt) (hd : ∀ rs rt, i ≠ .div rs rt) :
    s'.hi = s.hi ∧ s'.lo = s.lo := by
  cases h with
  | accumulators hi lo h =>
    rcases h with ⟨rs, rt, rfl⟩ | ⟨rs, rt, rfl⟩
    · exact absurd rfl (hm rs rt)
    · exact absurd rfl (hd rs rt)
  | _ => exact ⟨rfl, rfl⟩

theorem exec_accumulators_frame (h : exec i s = .next t) (hm : ∀ rs rt, i ≠ .mult rs rt) (hd : ∀ rs rt, i ≠ .div rs rt) :
    t.hi = s.hi ∧ t.lo = s.lo := by
  obtain ⟨_, -, -, ⟨reason, -, rfl⟩ | ⟨s', m, -, hws, -, rfl⟩⟩ := exec_next h
  · exact ⟨rfl, rfl⟩
  · exact hws.accumulators_frame hm hd

/-- A `mult` or `div` that commits overwrites both accumulators, whatever they held. -/
theorem exec_overwrites_accumulators (h : exec i s = .next t) (hi : ∃ rs rt, i = .mult rs rt ∨ i = .div rs rt)
    (ht : t.mode.isFaulted = false) (hi' lo' : Word) : exec i { s with hi := hi', lo := lo' } = .next t := by
  obtain ⟨pc, s', m, hm, hw, he, hws, hc, rfl⟩ := exec_next_committed h ht
  obtain ⟨rs, rt, hi⟩ := hi
  obtain ⟨-, hmode, hsteps, -, -⟩ := hws.frame
  have heffects := effectsOf_with_accumulators i s s.mode s.steps hi' lo' (hi.imp (⟨rs, rt, ·⟩) (⟨rs, rt, ·⟩))
  have same : ({ s' with mode := s.mode, steps := s.steps } : State) = s' := by rw [← hmode, ← hsteps]
  rw [he] at heffects
  have hw' := mt (waitsForever_with i s s.mode s.steps hi' lo').mp hw
  rw [← controlOf_with i s s.mode s.steps hi' lo'] at hc
  exact exec_of_commitsAt (s := { s with hi := hi', lo := lo' }) hm hw'
    (heffects.trans (congrArg Except.ok same)) hc

/-- An operand-based fault does not depend on the accumulators. -/
theorem effectsOf_error_with_accumulators {reason : FaultReason} (h1 : ∀ rd, i ≠ .mfhi rd) (h2 : ∀ rd, i ≠ .mflo rd)
    (hi' lo' : Word) (he : effectsOf i s = .error reason) : effectsOf i { s with hi := hi', lo := lo' } = .error reason := by
  by_cases hmd : (∃ rs rt, i = .mult rs rt) ∨ ∃ rs rt, i = .div rs rt
  · refine (effectsOf_with_accumulators i s s.mode s.steps hi' lo' hmd).trans ?_
    rw [he]
    rfl
  · push Not at hmd
    refine (effectsOf_with i s s.mode s.steps hi' lo' h1 h2 hmd.1 hmd.2).trans ?_
    rw [he]
    rfl

/-- An instruction that names no accumulator, and a fault, leave both and depend on neither. -/
theorem exec_ignores_accumulators (h : exec i s = .next t) (h1 : ∀ rd, i ≠ .mfhi rd) (h2 : ∀ rd, i ≠ .mflo rd)
    (hmd : (∀ rs rt, i ≠ .mult rs rt ∧ i ≠ .div rs rt) ∨ t.mode.isFaulted = true) (hi' lo' : Word) :
    exec i { s with hi := hi', lo := lo' } = .next { t with hi := hi', lo := lo' } := by
  obtain ⟨pc, hm, hw, hcase⟩ := exec_next h
  have hw' := mt (waitsForever_with i s s.mode s.steps hi' lo').mp hw
  have hcontrol := controlOf_with i s s.mode s.steps hi' lo' pc
  rcases hcase with ⟨reason, hf, rfl⟩ | ⟨s', m, he, hws, hc, rfl⟩
  · exact exec_of_faultsAt hm hw' (hf.imp (effectsOf_error_with_accumulators h1 h2 hi' lo')
      fun hc => by rw [hcontrol]; exact hc)
  · have hmd' : ∀ rs rt, i ≠ .mult rs rt ∧ i ≠ .div rs rt := hmd.resolve_right (by simp [hc.not_faulted])
    obtain ⟨-, hmode, hsteps, -, -⟩ := hws.frame
    have heffects := effectsOf_with i s s.mode s.steps hi' lo' h1 h2 (fun rs rt => (hmd' rs rt).1) fun rs rt => (hmd' rs rt).2
    rw [he] at heffects
    rw [← hcontrol] at hc
    have := exec_of_commitsAt (s := { s with hi := hi', lo := lo' }) hm hw' heffects hc
    simpa [State.setMode, State.countStep, hsteps] using this

/-- Settles O49. -/
theorem accumulatorsBelongToMultAndDiv : Obligations.AccumulatorsBelongToMultAndDiv := by
  refine ⟨fun i s t h => exec_accumulators_frame h, fun i s t hi' lo' h hi ht => exec_overwrites_accumulators h hi ht hi' lo',
    fun i s t hi' lo' h h1 h2 hmd => exec_ignores_accumulators h h1 h2 hmd hi' lo', fun l t h ht => ?_⟩
  obtain ⟨imem, -, rfl⟩ := load_not_faulted h ht
  exact ⟨rfl, rfl⟩

/-! ## The streams -/

theorem WritesOf.out_frame (h : WritesOf i s s') :
    s'.out = s.out ∨ (i = .syscall ∧ sint (s.readReg Reg.v0) = 1 ∧ s'.out = s.out ++ [sint (s.readReg Reg.a0)]) := by
  cases h with
  | output hi hc => exact .inr ⟨hi, hc, rfl⟩
  | _ => exact .inl rfl

theorem WritesOf.input_frame (h : WritesOf i s s') : (s'.input = s.input ∧ s'.drawn = s.drawn) ∨
    (i = .syscall ∧ sint (s.readReg Reg.v0) = 5 ∧ s'.input = s.input.tail ∧ s'.drawn = s.drawn + 1) := by
  cases h with
  | input v hi hc => exact .inr ⟨hi, hc, rfl, rfl⟩
  | _ => exact .inl ⟨rfl, rfl⟩

/-- Settles O51. -/
theorem outputAndInputFrame : Obligations.OutputAndInputFrame := by
  intro i s t h
  obtain ⟨_, -, -, ⟨reason, -, rfl⟩ | ⟨s', m, -, hws, -, rfl⟩⟩ := exec_next h
  · exact ⟨.inl rfl, .inl ⟨rfl, rfl⟩⟩
  · exact ⟨hws.out_frame, hws.input_frame⟩

end Sys2Proof.Machine
end

section
/-! SUPPORT. The load and the placing of a word (70_reset_and_hazards.md R180, R181), and what the outside sees of a state
(10_state.md R34, R35, R47). -/

namespace Sys2Proof.Machine

variable {i : Instr} {s t : State} {l : Launch} {imem : List Instr} {pc : Nat}

/-! ## The load -/

/-- A program all of whose words decode decodes whole (30_encoding.md R94). -/
theorem decodeProgram_of_forall {program : List Word} (h : ∀ w ∈ program, ∃ i, decode w = .ok i) :
    ∃ imem, decodeProgram program = .ok imem := by
  cases hd : decodeProgram program with
  | ok imem => exact ⟨imem, rfl⟩
  | error pe =>
    obtain ⟨j, hj, -, he, -⟩ := decodeProgramFrom_error (p := pe.1) (e := pe.2) hd
    obtain ⟨i, hi⟩ := h _ (List.getElem_mem hj)
    rw [hi] at he
    cases he

/-- A launch within the bounds whose program decodes loads (R180). -/
theorem load_of_decodeProgram (hwf : l.wellFormed = true) (hd : decodeProgram l.program = .ok imem) :
    load l = .next (loadedState l.config imem (Memory.ofWords l.data) l.input) := by
  simp [load, hwf, hd]

theorem State.reset_readReg (r : Reg) : State.reset.readReg r = 0 := by simp [State.readReg, State.reset]

/-- The general registers of the reset state: `$gp` holds `bv32(N)`, every other 0 (R26). -/
theorem loadedState_readReg (config : Config) (imem : List Instr) (dmem : Memory) (input : List HostAnswer) (r : Reg) :
    (loadedState config imem dmem input).readReg r = if r = Reg.gp then bv32 imem.length else 0 := by
  refine (State.readReg_congr (s := State.reset.setX Reg.gp (bv32 imem.length)) rfl r).trans ?_
  split
  · rename_i h
    rw [h]
    exact State.readReg_setX_same State.reset (by decide) _
  · rename_i h
    exact (State.readReg_setX_other State.reset h _).trans (State.reset_readReg r)

theorem loadedState_zero_stored (config : Config) (imem : List Instr) (dmem : Memory) (input : List HostAnswer) :
    (loadedState config imem dmem input).x[0] = 0 := by
  simp [loadedState, State.reset, Reg.gp]

/-- Settles O2: the loaded state of the decoded program is the reset state. -/
theorem loadEstablishesResetState : Obligations.LoadEstablishesResetState := by
  intro l hwf hdec
  obtain ⟨imem, himem⟩ := decodeProgram_of_forall hdec
  obtain ⟨hlen, hwords⟩ := decodeProgramFrom_ok himem
  refine ⟨_, load_of_decodeProgram hwf himem, fun r => ?_, loadedState_zero_stored _ _ _ _, rfl, rfl, rfl, rfl, ?_, hlen,
    hwords, Memory.ofWords_size l.data, Memory.read_ofWords l.data⟩
  · rw [loadedState_readReg, hlen]
    rfl
  · simp only [loadedState, hlen]

/-! ## Fetch of a decoded word -/

/-- Settles O7: the fetch gives the decoded word, and a step is the execution of what it fetches. -/
theorem stepExecutesTheDecodedInstruction : Obligations.StepExecutesTheDecodedInstruction := by
  refine ⟨fun s pc w i hm _ hf => step_of_fetch hm hf, fun l t h ht k hk => ?_⟩
  obtain ⟨imem, himem, rfl⟩ := load_not_faulted h ht
  obtain ⟨hlen, hwords⟩ := decodeProgramFrom_ok himem
  have hk' : k < imem.length := hlen ▸ hk
  refine ⟨imem[k], hwords k hk hk', fun s hs hm => step_of_fetch hm ?_⟩
  rw [State.fetch, hs]
  exact List.getElem?_eq_getElem hk'

/-- Placing an instruction leaves a running machine that fetches it next (log entry 3). -/
theorem State.placeInstr_fetches (s : State) (i : Instr) :
    ∃ pc, (s.placeInstr i).mode = .running pc ∧ (s.placeInstr i).fetch pc = some i := by
  unfold State.placeInstr
  split
  · rename_i pc hm
    split
    · rename_i hpc
      exact ⟨pc, hm, List.getElem?_set_self hpc⟩
    · exact ⟨0, rfl, rfl⟩
  · exact ⟨0, rfl, rfl⟩

theorem State.withFetchWord_eq {nbits w : Nat} (h : decodeTableWord nbits w = some i) (s : State) :
    s.withFetchWord nbits w = s.placeInstr i := by
  simp [State.withFetchWord, h]

/-- A table word of 32 bits is the word itself. -/
theorem decodeTableWord_of_decode {w : Word} (h : decode w = .ok i) : decodeTableWord 32 w.toNat = some i := by
  have hw : BitVec.ofNat 32 (w.toNat % 2 ^ 32) = w := by rw [Nat.mod_eq_of_lt w.isLt, BitVec.ofNat_toNat, BitVec.setWidth_eq]
  simp only [decodeTableWord, hw, h]

/-- Settles O8: the placed word is what the next step fetches, and from reset it is the load of the one-word program. -/
theorem placedWordIsTheNextInstruction : Obligations.PlacedWordIsTheNextInstruction := by
  refine ⟨fun s nbits w i h => ?_, fun w i h => ?_⟩
  · rw [State.withFetchWord_eq h]
    obtain ⟨pc, hm, hf⟩ := s.placeInstr_fetches i
    exact ⟨by rw [hm]; rfl, step_of_fetch hm hf⟩
  · rw [State.withFetchWord_eq (decodeTableWord_of_decode h)]
    exact load_of_decodeProgram (imem := [i]) rfl (by simp [decodeProgram, decodeProgramFrom, h])

/-! ## The trace -/

theorem loadTrace_of_not_faulted (h : s.mode.isFaulted = false) : loadTrace s = some (.loaded s.imem s.dmem.words) := by
  unfold loadTrace
  split
  · rename_i hm
    simp [hm, Mode.isFaulted] at h
  · rfl

/-- A committed step is recorded with the instruction fetched and the snapshots after it (R34). -/
theorem stepTrace_of_committed (hm : s.mode = .running pc) (h : step s = .next t) (ht : t.mode.isFaulted = false)
    (hf : s.fetch pc = some i) : stepTrace s = some (.stepped i t.snapshot t.dmem.words) := by
  cases htm : t.mode with
  | faulted _ _ => simp [htm, Mode.isFaulted] at ht
  | running _ | halted => simp [stepTrace, hm, h, htm, hf]

/-- A faulting step gives no record (92_eei_decisions.md D27; log entry 10). -/
theorem stepTrace_of_faulted (hm : s.mode = .running pc) (h : step s = .next t) (ht : t.mode.isFaulted = true) :
    stepTrace s = none := by
  cases htm : t.mode with
  | faulted _ _ => simp [stepTrace, hm, h, htm]
  | running _ | halted => simp [htm, Mode.isFaulted] at ht

/-- Settles O57. -/
theorem traceShowsTheCommittedStep : Obligations.TraceShowsTheCommittedStep := by
  refine ⟨fun l t h ht => ?_, fun s t pc hm h => ⟨fun ht => ?_, stepTrace_of_faulted hm h⟩, fun s =>
    ⟨s.snapshot_length, s.snapshot_x, s.snapshot_hi, s.snapshot_lo, s.dmem.words_length, fun _ => s.dmem.words_getElem?⟩⟩
  · rw [loadTrace_of_not_faulted ht]
    obtain ⟨imem, -, rfl⟩ := load_not_faulted h ht
    exact congrArg (fun data => some (TraceRecord.loaded imem data)) (Memory.words_ofWords l.data)
  · obtain ⟨pc', i, hm', hf, -⟩ := step_next_cases h
    obtain rfl := Mode.running.inj (hm.symm.trans hm')
    exact ⟨i, hf, stepTrace_of_committed hm h ht hf⟩

/-! ## The observation of an ended run -/

theorem Mode.exitStatus_isSome (m : Mode) : m.exitStatus.isSome = true ↔ m.isRunning = false := by
  cases m <;> simp [Mode.exitStatus, Mode.isRunning]

/-- Settles O56: `EXIT_FAULT_STATUS` is a successor. -/
theorem exitStatusTellsFaultsApart : Obligations.ExitStatusTellsFaultsApart := by
  refine ⟨rfl, fun _ _ => ⟨_, rfl, Nat.succ_ne_zero _⟩, fun _ => rfl, fun s => ?_⟩
  rw [State.observe, Option.isSome_map]
  exact s.mode.exitStatus_isSome

/-- What an observation holds. -/
theorem State.observe_eq_some {o : Observation} (h : s.observe = some o) :
    s.mode.exitStatus = some o.exitStatus ∧ o.terminal = s.mode ∧ o.result = s.runResult := by
  obtain ⟨status, hs, rfl⟩ := Option.map_eq_some_iff.mp h
  exact ⟨hs, rfl, rfl⟩

/-- Nothing of a run whose load met an illegal word is observable (R180). -/
theorem State.runResult_eq_none (s : State) : s.runResult = none ↔ ∃ k, s.mode = .faulted .decodeError k := by
  unfold State.runResult
  split
  · rename_i k hm
    exact ⟨fun _ => ⟨k, hm⟩, fun _ => rfl⟩
  · rename_i hm
    exact ⟨fun h => (nomatch h), fun ⟨k, hk⟩ => absurd hk (hm k)⟩

theorem State.runResult_eq_some {r : RunResult} (h : s.runResult = some r) :
    r = { out := s.out, registers := s.snapshot, data := s.dmem.words } := by
  unfold State.runResult at h
  split at h <;> cases h
  rfl

/-- Settles O58. -/
theorem observationHoldsTheFinalState : Obligations.ObservationHoldsTheFinalState := by
  intro s o h
  obtain ⟨hstatus, hterminal, hresult⟩ := State.observe_eq_some h
  refine ⟨hterminal, hstatus, by rw [hresult]; exact s.runResult_eq_none, fun r hr => ?_⟩
  obtain rfl := State.runResult_eq_some (hresult.symm.trans hr)
  exact ⟨rfl, rfl, rfl, s.snapshot_length, s.snapshot_x, s.dmem.words_length, fun _ => s.dmem.words_getElem?⟩

end Sys2Proof.Machine
end

section
/-! SUPPORT. Loads and stores as reads and writes of data memory (20_memory.md R60 to R68, 44_loadstore.md R150, R151): which word
an instruction can change, what a store and a load commit, and which word `$gp` reaches. -/

namespace Sys2Proof.Machine

variable {i : Instr} {s s' t : State} {pc : Nat} {rt rs : Reg} {imm : Imm16}

/-! ## The frame of data memory -/

/-- No write reaches a data word but the one at the index the instruction stores to (R63). -/
theorem WritesOf.dmem_read_frame (h : WritesOf i s s') {k : Nat} (hk : storeIndexOf i s ≠ some (k : Int)) :
    s'.dmem.read k = s.dmem.read k := by
  cases h with
  | memory j v hj _ =>
    have hne : j ≠ k := by
      rintro rfl
      exact hk hj
    exact Memory.read_write_other s.dmem v hne
  | _ => rfl

/-- Settles O50: a fault leaves data memory, and a commit changes at most the word stored to. -/
theorem dataMemoryFrame : Obligations.DataMemoryFrame := by
  intro i s t h k hk
  obtain ⟨_, -, -, ⟨reason, -, rfl⟩ | ⟨s', m, -, hws, -, rfl⟩⟩ := exec_next h
  · rfl
  · exact hws.dmem_read_frame hk

/-! ## What a load and a store commit -/

/-- The write port commits exactly for a register other than 0 (10_state.md R23). -/
theorem State.writeReg_ok_iff {r : Reg} {v : Word} : s.writeReg r v = .ok s' ↔ r ≠ 0 ∧ s' = s.setX r v := by
  rcases s.writeReg_cases r v with ⟨h0, he⟩ | ⟨h0, he⟩ <;> rw [he]
  · exact ⟨fun h => (nomatch h), fun h => absurd h0 h.1⟩
  · exact ⟨fun h => ⟨h0, (Except.ok.inj h).symm⟩, fun h => congrArg Except.ok h.2.symm⟩

/-- A load whose effective index is in range writes the word there to its destination (R150). -/
theorem effectsOf_lw_of_inRange (h : inRange (s.effectiveIndex rs imm) s.dataCount = true) :
    effectsOf (.lw rt rs imm) s = s.writeReg rt (s.dmem.read (s.effectiveIndex rs imm).toNat) := by
  simp [effectsOf, State.loadWord, h, Except.bind]

/-- A load has no fault exactly when its effective index is in range and its destination is not register 0. -/
theorem effectsOf_lw_ok_iff : effectsOf (.lw rt rs imm) s = .ok s' ↔
    inRange (s.effectiveIndex rs imm) s.dataCount = true ∧ rt ≠ 0 ∧
      s' = s.setX rt (s.dmem.read (s.effectiveIndex rs imm).toNat) := by
  cases hr : inRange (s.effectiveIndex rs imm) s.dataCount with
  | false => simp [effectsOf_lw_out_of_range hr]
  | true =>
    rw [effectsOf_lw_of_inRange hr, State.writeReg_ok_iff]
    simp

/-- A store writes its source register at its effective index, when that is in range (R151). -/
theorem effectsOf_sw_ok_iff : effectsOf (.sw rt rs imm) s = .ok s' ↔
    inRange (s.effectiveIndex rs imm) s.dataCount = true ∧
      s' = s.setDmem (s.dmem.write (s.effectiveIndex rs imm).toNat (s.readReg rt)) := by
  rcases s.storeWord_cases (s.effectiveIndex rs imm) (s.readReg rt) with ⟨hr, hw⟩ | ⟨hr, hw⟩ <;>
    simp [effectsOf, hw, hr, eq_comm (a := s')]

/-- After a committed load the destination reads the data word at the effective index. -/
theorem exec_lw_committed (h : exec (.lw rt rs imm) s = .next t) (ht : t.mode.isFaulted = false) :
    inRange (s.effectiveIndex rs imm) s.dataCount = true ∧
      t.readReg rt = s.dmem.read (s.effectiveIndex rs imm).toNat := by
  obtain ⟨_, s', m, -, -, he, -, -, rfl⟩ := exec_next_committed h ht
  obtain ⟨hr, h0, rfl⟩ := effectsOf_lw_ok_iff.mp he
  exact ⟨hr, (State.readReg_congr rfl rt).trans (s.readReg_setX_same h0 _)⟩

/-- After a committed store data memory is written at the effective index. -/
theorem exec_sw_committed (h : exec (.sw rt rs imm) s = .next t) (ht : t.mode.isFaulted = false) :
    inRange (s.effectiveIndex rs imm) s.dataCount = true ∧
      t.dmem = s.dmem.write (s.effectiveIndex rs imm).toNat (s.readReg rt) := by
  obtain ⟨_, s', m, -, -, he, -, -, rfl⟩ := exec_next_committed h ht
  obtain ⟨hr, rfl⟩ := effectsOf_sw_ok_iff.mp he
  exact ⟨hr, rfl⟩

/-- Two indices in range that differ name different words. -/
theorem toNat_ne_of_inRange {a b : Int} {n n' : Nat} (ha : inRange a n = true) (hb : inRange b n' = true) (hne : a ≠ b) :
    a.toNat ≠ b.toNat := by
  obtain ⟨ha0, -⟩ := inRange_iff.mp ha
  obtain ⟨hb0, -⟩ := inRange_iff.mp hb
  omega

/-- Settles O37: the load reads the memory the store wrote, in which the stored word stands at its index and every other word is
as before. -/
theorem storeThenLoadReturnsTheWord : Obligations.StoreThenLoadReturnsTheWord := by
  intro s t u rt rs rt' rs' imm imm' hs hsw ht hlw hu
  obtain ⟨hstore, hdmem⟩ := exec_sw_committed hsw ht
  obtain ⟨hload, hread⟩ := exec_lw_committed hlw hu
  rw [hread, hdmem]
  constructor
  · intro heq
    rw [heq]
    exact Memory.read_write_same hs.dmem_wf _ _
  · intro hne
    exact Memory.read_write_other s.dmem _ (toNat_ne_of_inRange hstore hload hne.symm)

/-! ## The data segment through `$gp` -/

/-- An instruction whose writes do not fault and that advances sequentially commits them (R38). -/
theorem exec_of_effects_seq (hm : s.mode = .running pc) (hi : i ≠ .syscall) (he : effectsOf i s = .ok s')
    (hc : controlOf i s pc = .seq) : ∃ m, exec i s = .next (s'.countStep.setMode m) := by
  rw [exec_of_running hm fun hw => hi hw.1, he, hc]
  exact ⟨_, s.complete_seq s' pc⟩

/-- While `$gp` holds `N`, the effective index through it is the signed offset (R64): within the launch bounds `N` is its own
signed value as a word. -/
theorem State.effectiveIndex_gp (hsize : launchSizesOk s.imem.length s.dmem.size = true)
    (hgp : s.readReg Reg.gp = bv32 s.imem.length) : s.effectiveIndex Reg.gp imm = imm.toInt := by
  have hN : s.imem.length ≤ 2 ^ 31 - 1 := by
    simp only [launchSizesOk, Bool.and_eq_true, decide_eq_true_eq] at hsize
    exact hsize.1
  have hbase : sint (bv32 s.imem.length) = s.imem.length := sint_bv32 (by omega) (by omega)
  simp only [State.effectiveIndex, effectiveIndexOf, State.instructionCount, hgp, hbase, sext16]
  omega

/-- Settles O36: the effective index is `k`, in range, and neither form has a target that could fault. -/
theorem gpOffsetReachesTheDataWord : Obligations.GpOffsetReachesTheDataWord := by
  intro s pc k rt imm hm hsize hgp himm hk
  have hei : s.effectiveIndex 28 imm = k := (State.effectiveIndex_gp hsize hgp).trans himm
  have hr : inRange (s.effectiveIndex 28 imm) s.dataCount = true := inRange_iff.mpr (by rw [hei]; exact ⟨by omega, Int.ofNat_lt.mpr hk⟩)
  have hindex : (s.effectiveIndex 28 imm).toNat = k := by rw [hei, Int.toNat_natCast]
  rw [← hindex]
  constructor
  · intro h0
    obtain ⟨m, hexec⟩ := exec_of_effects_seq hm (by simp) (effectsOf_lw_ok_iff.mpr ⟨hr, h0, rfl⟩) rfl
    exact ⟨_, hexec, (State.readReg_congr rfl rt).trans (s.readReg_setX_same h0 _)⟩
  · obtain ⟨m, hexec⟩ := exec_of_effects_seq hm (by simp) (effectsOf_sw_ok_iff.mpr ⟨hr, rfl⟩) rfl
    exact ⟨_, hexec, rfl⟩

end Sys2Proof.Machine
end

section
/-! SUPPORT. The decoder row by row: the fields by which a word stands for an instruction, the same fields in its encoding and under
the mask of its ignored bits, its ports, and the words that stand for none (30_encoding.md R84 to R96). -/

namespace Sys2Proof

variable {w : Word} {i : Instr}

/-! ## The rows of the decoder -/

/-- The row of R84, R85 or R87 for `i`: the opcode, the function code of the R-format, and `i`'s operands in the fields that
R90 lists for it. -/
def HasFieldsOf (w : Word) : Instr → Prop
  | .syscall => opcodeOf w = 0 ∧ functOf w = 12
  | .mfhi rd => opcodeOf w = 0 ∧ functOf w = 16 ∧ rdOf w = rd
  | .mflo rd => opcodeOf w = 0 ∧ functOf w = 18 ∧ rdOf w = rd
  | .mult rs rt => opcodeOf w = 0 ∧ functOf w = 24 ∧ rsOf w = rs ∧ rtOf w = rt
  | .div rs rt => opcodeOf w = 0 ∧ functOf w = 26 ∧ rsOf w = rs ∧ rtOf w = rt
  | .addu rd rs rt => opcodeOf w = 0 ∧ functOf w = 33 ∧ rdOf w = rd ∧ rsOf w = rs ∧ rtOf w = rt
  | .subu rd rs rt => opcodeOf w = 0 ∧ functOf w = 35 ∧ rdOf w = rd ∧ rsOf w = rs ∧ rtOf w = rt
  | .and rd rs rt => opcodeOf w = 0 ∧ functOf w = 36 ∧ rdOf w = rd ∧ rsOf w = rs ∧ rtOf w = rt
  | .or rd rs rt => opcodeOf w = 0 ∧ functOf w = 37 ∧ rdOf w = rd ∧ rsOf w = rs ∧ rtOf w = rt
  | .slt rd rs rt => opcodeOf w = 0 ∧ functOf w = 42 ∧ rdOf w = rd ∧ rsOf w = rs ∧ rtOf w = rt
  | .j target => opcodeOf w = 2 ∧ targetOf w = target
  | .beq rs rt imm => opcodeOf w = 4 ∧ rsOf w = rs ∧ rtOf w = rt ∧ immOf w = imm
  | .bne rs rt imm => opcodeOf w = 5 ∧ rsOf w = rs ∧ rtOf w = rt ∧ immOf w = imm
  | .addiu rt rs imm => opcodeOf w = 9 ∧ rtOf w = rt ∧ rsOf w = rs ∧ immOf w = imm
  | .lw rt rs imm => opcodeOf w = 35 ∧ rtOf w = rt ∧ rsOf w = rs ∧ immOf w = imm
  | .sw rt rs imm => opcodeOf w = 43 ∧ rtOf w = rt ∧ rsOf w = rs ∧ immOf w = imm

theorem hasFieldsOf_of_decodeRegisterFormat (ho : opcodeOf w = 0) (h : decodeRegisterFormat w = .ok i) : HasFieldsOf w i := by
  unfold decodeRegisterFormat at h
  split at h <;> cases h <;> simp [HasFieldsOf, *]

/-- The decoder answers an instruction exactly when the word has its row's fields. -/
theorem decode_ok_iff : decode w = .ok i ↔ HasFieldsOf w i := by
  constructor
  · intro h
    unfold decode at h
    split at h
    case h_1 ho => exact hasFieldsOf_of_decodeRegisterFormat ho h
    all_goals cases h <;> simp [HasFieldsOf, *]
  · intro h
    cases i <;> simp only [HasFieldsOf] at h <;> simp [decode, decodeRegisterFormat, h]

/-! ## The encoding -/

theorem encode_hasFieldsOf (i : Instr) : HasFieldsOf (encode i) i := by
  cases i <;> simp [HasFieldsOf, encode]

/-- Settles O10: the encoding has the fields of its row. -/
theorem decodeOfEncodeIsIdentity : Obligations.DecodeOfEncodeIsIdentity :=
  fun i => decode_ok_iff.mpr (encode_hasFieldsOf i)

/-! ## The ignored bits -/

/-- A field in use: its mask is all ones. -/
theorem and_of_eq_allOnes {n : Nat} {a m : BitVec n} (h : m = BitVec.allOnes n) : a &&& m = a := by
  rw [h, BitVec.and_allOnes]

/-- An ignored field: its mask is zero. -/
theorem and_of_eq_zero {n : Nat} {a m : BitVec n} (h : m = 0#n) : a &&& m = 0#n := by
  rw [h, BitVec.and_zero]

/-- Clearing an instruction's ignored bits leaves the fields of its row (R89). -/
theorem hasFieldsOf_mask : HasFieldsOf (w &&& ~~~ignoredBits i) i ↔ HasFieldsOf w i := by
  cases i <;> rw [ignoredBits] <;> simp (disch := decide) [HasFieldsOf, and_of_eq_allOnes]

/-- A word of an instruction's row, with the ignored bits cleared, is the instruction's encoding. -/
theorem mask_of_hasFieldsOf (h : HasFieldsOf w i) : w &&& ~~~ignoredBits i = encode i := by
  cases i with
  | syscall | mfhi _ | mflo _ | mult _ _ | div _ _ | addu _ _ _ | subu _ _ _ | and _ _ _ | or _ _ _ | slt _ _ _ =>
    have ho : opcodeOf w = 0 := h.1
    rw [HasFieldsOf] at h
    rw [ignoredBits, register_mask ho (by decide) (by decide)]
    simp (disch := decide) [encode, h, and_of_eq_zero, and_of_eq_allOnes]
  | j _ =>
    obtain ⟨ho, rfl⟩ := h
    rw [ignoredBits, encode, encodeJumpFormat_fields ho]
    exact and_of_eq_allOnes rfl
  | beq _ _ _ | bne _ _ _ | addiu _ _ _ | lw _ _ _ | sw _ _ _ =>
    obtain ⟨ho, rfl, rfl, rfl⟩ := h
    rw [ignoredBits, encode, ← ho, encodeImmediateFormat_fields]
    exact and_of_eq_allOnes rfl

/-- Settles O11: the bits that are not ignored are those of the row's fields. -/
theorem decodeIsExactlyTheEncodingUpToIgnoredBits : Obligations.DecodeIsExactlyTheEncodingUpToIgnoredBits := by
  intro w i
  rw [decode_ok_iff]
  refine ⟨mask_of_hasFieldsOf, fun h => hasFieldsOf_mask.mp ?_⟩
  rw [h]
  exact encode_hasFieldsOf i

/-! ## Words of the test vectors (95_test_vectors.md L2-DEC) -/

/-- Settles O9: the fourteen words, evaluated. -/
theorem sampleWordsDecode : Obligations.SampleWordsDecode := by
  unfold Obligations.SampleWordsDecode
  decide

/-! ## The ports -/

@[simp] theorem Instr.ports_valid (i : Instr) : i.ports.valid = true := by
  cases i <;> rfl

/-- Settles O13: the operands that the ports carry are the fields of the word's row. -/
theorem decoderPortsCarryTheFields : Obligations.DecoderPortsCarryTheFields := by
  constructor
  · intro w
    cases hd : decode w <;> simp [decoderPorts, hd]
  · intro w i h
    have hports : decoderPorts w = i.ports := by simp [decoderPorts, h]
    have hfields := decode_ok_iff.mp h
    cases i with
    | syscall => exact hports
    | mfhi _ | mflo _ =>
      obtain ⟨-, -, rfl⟩ := hfields
      exact hports
    | mult _ _ | div _ _ =>
      obtain ⟨-, -, rfl, rfl⟩ := hfields
      exact hports
    | addu _ _ _ | subu _ _ _ | and _ _ _ | or _ _ _ | slt _ _ _ =>
      obtain ⟨-, -, rfl, rfl, rfl⟩ := hfields
      exact hports
    | j _ =>
      obtain ⟨-, rfl⟩ := hfields
      exact hports
    | beq _ _ _ | bne _ _ _ | addiu _ _ _ | lw _ _ _ | sw _ _ _ =>
      obtain ⟨-, rfl, rfl, rfl⟩ := hfields
      exact hports

/-! ## The words that stand for no instruction -/

/-- The function codes of R84. -/
def supportedFunctions : List (BitVec 6) := [12, 16, 18, 24, 26, 33, 35, 36, 37, 42]

/-- The opcodes of R85 and R87; opcode 0 is the R-format. -/
def supportedOpcodes : List (BitVec 6) := [2, 4, 5, 9, 35, 43]

theorem decodeRegisterFormat_error_iff : (∃ e, decodeRegisterFormat w = .error e) ↔ functOf w ∉ supportedFunctions := by
  unfold decodeRegisterFormat
  split <;> simp_all [supportedFunctions]

/-- The decoder rejects an R-format word by its function code, any other by its opcode. -/
theorem decode_error_iff : (∃ e, decode w = .error e) ↔
    (opcodeOf w ≠ 0 ∧ opcodeOf w ∉ supportedOpcodes) ∨ (opcodeOf w = 0 ∧ functOf w ∉ supportedFunctions) := by
  unfold decode
  split
  case h_1 ho => simp [ho, decodeRegisterFormat_error_iff]
  all_goals simp_all [supportedOpcodes]

/-- The opcodes that R96 lists are the ones other than 0 that no row has. -/
theorem unsupported_opcode_iff : ∀ op : BitVec 6, (op ≠ 0 ∧ op ∉ supportedOpcodes) ↔
    (op.toNat ∈ [1, 3, 6, 7, 8] ∨ (10 ≤ op.toNat ∧ op.toNat ≤ 34) ∨ (36 ≤ op.toNat ∧ op.toNat ≤ 42) ∨ 44 ≤ op.toNat) := by
  decide

theorem unsupported_function_iff : ∀ f : BitVec 6, f ∉ supportedFunctions ↔
    f.toNat ∉ [12, 16, 18, 24, 26, 33, 35, 36, 37, 42] := by
  decide

end Sys2Proof
end

section
/-! SUPPORT. The load of a program that holds an illegal word (30_encoding.md R94, R96; 70_reset_and_hazards.md R180). -/

namespace Sys2Proof.Machine

variable {l : Launch} {k : Nat} {e : DecodeError}

/-- A program that holds an illegal word does not decode (R94). -/
theorem decodeProgram_of_illegal {program : List Word} (h : ∃ w ∈ program, ∃ e, decode w = .error e) :
    ∃ k e, decodeProgram program = .error (k, e) := by
  cases hd : decodeProgram program with
  | error pe => exact ⟨pe.1, pe.2, rfl⟩
  | ok imem =>
    obtain ⟨w, hw, e, he⟩ := h
    obtain ⟨j, hj, rfl⟩ := List.getElem_of_mem hw
    obtain ⟨hlen, hwords⟩ := decodeProgramFrom_ok hd
    rw [hwords j hj (hlen ▸ hj)] at he
    cases he

/-- Its decode names the 1-based position of its first illegal word (92_eei_decisions.md D14). -/
theorem decodeProgram_of_first_illegal {program : List Word} (hk : k < program.length) (he : decode program[k] = .error e)
    (hlt : ∀ j (hj : j < k), ∃ i, decode (program[j]'(hj.trans hk)) = .ok i) :
    ∃ e, decodeProgram program = .error (k + 1, e) := by
  obtain ⟨p, e', hd⟩ := decodeProgram_of_illegal ⟨_, List.getElem_mem hk, e, he⟩
  obtain ⟨j, hj, rfl, hje, hjlt⟩ := decodeProgramFrom_error hd
  rcases Nat.lt_trichotomy j k with hjk | rfl | hkj
  · obtain ⟨i, hi⟩ := hlt j hjk
    cases hi.symm.trans hje
  · exact ⟨e', by rw [hd, Nat.add_comm]⟩
  · obtain ⟨i, hi⟩ := hjlt k hkj
    cases hi.symm.trans he

/-- A launch within the bounds whose program does not decode ends its load there (R180). -/
theorem load_of_decodeProgram_error (hwf : l.wellFormed = true) (hd : decodeProgram l.program = .error (k, e)) :
    load l = .next (decodeFaultState l k) := by
  simp [load, hwf, hd]

/-- Settles O4: the load faults at the first illegal word, and a faulted machine takes no step. -/
theorem decodeErrorAbortsLoad : Obligations.DecodeErrorAbortsLoad := by
  rintro l k hk hwf ⟨e, he⟩ hlt
  obtain ⟨e', hd⟩ := decodeProgram_of_first_illegal hk he hlt
  have hmode := decodeFaultState_mode l (k + 1)
  exact ⟨_, load_of_decodeProgram_error hwf hd, hmode, rfl, (terminalStatesTakeNoStep _).2 _ _ hmode⟩

/-- Settles O12: R96 lists the opcodes and function codes that no row has. -/
theorem illegalEncodingsAreExactlyTheListedSets : Obligations.IllegalEncodingsAreExactlyTheListedSets := by
  refine ⟨fun w => ?_, ⟨.unsupportedFunction 0, by decide⟩, fun l hwf hbad => ?_⟩
  · have hzero : opcodeOf w = 0 ↔ (opcodeOf w).toNat = 0 := BitVec.toNat_inj.symm
    rw [decode_error_iff, unsupported_opcode_iff, unsupported_function_iff, hzero]
    simp only [or_assoc]
  · obtain ⟨k, e, hd⟩ := decodeProgram_of_illegal hbad
    exact ⟨_, k, load_of_decodeProgram_error hwf hd, decodeFaultState_mode l k⟩

end Sys2Proof.Machine
end

section
/-! SUPPORT. The service codes of `syscall`, each with its writes and control choice (40_syscall.md R110 to R114); and two lemmas for
every instruction: a committed sequential step, and the words that stand for it. -/

namespace Sys2Proof

/-- The canonical word of an instruction stands for it whatever its ignored bits hold (30_encoding.md R89). -/
theorem encodedAs_ignoredBits {i : Instr} {word : Word} (h : encode i = word) : EncodedAs i word (ignoredBits i) :=
  ⟨h, fun w hw => (decodeIsExactlyTheEncodingUpToIgnoredBits w i).mpr (hw.trans h.symm)⟩

end Sys2Proof

namespace Sys2Proof.Machine

variable {i : Instr} {s s' : State} {pc : Nat} {v : Word}

/-- A running machine commits the writes of an instruction that advances sequentially (10_state.md R38, R41, R42, R46). -/
theorem exec_sequential (hm : s.mode = .running pc) (hw : ¬waitsForever i s) (he : effectsOf i s = .ok s')
    (hc : controlOf i s pc = .seq) : exec i s = .next (s'.countStep.setMode (afterSequential s pc)) := by
  rw [exec_of_running hm hw, he, hc]
  exact s.complete_seq s' pc

/-! ## The service codes -/

/-- Only code 5 asks the host. -/
theorem not_waitsForever_of_code_ne_five (h : sint (s.readReg Reg.v0) ≠ 5) : ¬waitsForever i s :=
  fun ⟨_, h5, _⟩ => h h5

/-- Every code but 10 advances sequentially. -/
theorem controlOf_syscall_of_code_ne_ten (h : sint (s.readReg Reg.v0) ≠ 10) : controlOf .syscall s pc = .seq :=
  if_neg h

theorem controlOf_syscall_ten (h : sint (s.readReg Reg.v0) = 10) : controlOf .syscall s pc = .halt :=
  if_pos h

theorem effectsOf_syscall_one (h : sint (s.readReg Reg.v0) = 1) :
    effectsOf .syscall s = .ok (s.emit (sint (s.readReg Reg.a0))) :=
  if_pos h

/-- Code 5 writes the host's answer to `$v0`, which is not register 0. -/
theorem effectsOf_syscall_five (h : sint (s.readReg Reg.v0) = 5) (hd : s.drawInput = some (v, s')) :
    effectsOf .syscall s = .ok (s'.setX Reg.v0 v) := by
  simp [effectsOf, h, hd, State.writeReg_of_ne s' (r := Reg.v0) (by decide)]

theorem effectsOf_syscall_ten (h : sint (s.readReg Reg.v0) = 10) : effectsOf .syscall s = .ok s := by
  simp [effectsOf, h]

theorem effectsOf_syscall_other (h1 : sint (s.readReg Reg.v0) ≠ 1) (h5 : sint (s.readReg Reg.v0) ≠ 5)
    (h10 : sint (s.readReg Reg.v0) ≠ 10) : effectsOf .syscall s = .error .invalidSyscall := by
  simp [effectsOf, h1, h5, h10]

/-! ## The host's answer -/

/-- An answer fixed beforehand is taken from the front. -/
theorem State.drawInput_value {rest : List HostAnswer} (h : s.input = .value v :: rest) :
    s.drawInput = some (v, { s with input := rest, drawn := s.drawn + 1 }) := by
  simp [State.drawInput, State.takeInput, h]

/-- With none fixed, the answer is the free value of the draw. -/
theorem State.drawInput_nil (h : s.input = []) :
    s.drawInput = some (Config.hostInput s.drawn, { s with drawn := s.drawn + 1 }) := by
  simp [State.drawInput, State.takeInput, h]

theorem State.drawInput_never {rest : List HostAnswer} (h : s.input = .never :: rest) : s.drawInput = none := by
  simp [State.drawInput, h]

/-- A `syscall` that draws an answer commits it. -/
theorem exec_syscall_five (hm : s.mode = .running pc) (h5 : sint (s.readReg Reg.v0) = 5)
    (hd : s.drawInput = some (v, s')) :
    exec .syscall s = .next ((s'.setX Reg.v0 v).countStep.setMode (afterSequential s pc)) := by
  have hw : ¬waitsForever .syscall s := fun ⟨_, _, hnone⟩ => nomatch hd.symm.trans hnone
  exact exec_sequential hm hw (effectsOf_syscall_five h5 hd) (controlOf_syscall_of_code_ne_ten (by omega))

/-! ## The obligations -/

/-- Settles O14. -/
theorem syscallOnePrints : Obligations.SyscallOnePrints := by
  refine ⟨encodedAs_ignoredBits (i := .syscall) (by decide), fun s pc hm (h1 : sint (s.readReg Reg.v0) = 1) => ?_⟩
  exact exec_sequential hm (not_waitsForever_of_code_ne_five (by omega)) (effectsOf_syscall_one h1)
    (controlOf_syscall_of_code_ne_ten (by omega))

/-- Settles O15: the three answers that a draw can meet. -/
theorem syscallFiveReadsTheHost : Obligations.SyscallFiveReadsTheHost := by
  intro s pc hm h5
  refine ⟨fun v rest hin => ?_, fun hin => ?_, fun rest hin => ?_⟩
  · exact exec_syscall_five hm h5 (State.drawInput_value hin)
  · exact exec_syscall_five hm h5 (State.drawInput_nil hin)
  · exact exec_waitsForever hm ⟨rfl, h5, State.drawInput_never hin⟩

/-- Settles O16: code 10 writes nothing, and its control choice halts. -/
theorem syscallTenHalts : Obligations.SyscallTenHalts := by
  intro s pc hm (h10 : sint (s.readReg Reg.v0) = 10)
  refine ⟨?_, rfl⟩
  rw [exec_of_running hm (not_waitsForever_of_code_ne_five (by omega)), effectsOf_syscall_ten h10, controlOf_syscall_ten h10]
  rfl

/-- Settles O17: the code is an operand-based fault. -/
theorem syscallOtherCodesFault : Obligations.SyscallOtherCodesFault := by
  intro s pc hm h1 h5 h10
  exact exec_of_faultsAt hm (not_waitsForever_of_code_ne_five h5) (.inl (effectsOf_syscall_other h1 h5 h10))

end Sys2Proof.Machine
end

section
/-! SUPPORT. Multiply, divide and the accumulator moves, each as the step it takes in a running machine (41_muldiv.md R120 to R125);
one lemma for every instruction of one result; and the exactness of `mult`: the halves of a 64-bit word, put together
again, are its signed value, and the product of two signed words fits one (00_scope.md R8). -/

namespace Sys2Proof

/-! ## The words -/

/-- A field of zeros adds nothing to a word. -/
@[simp] theorem fieldAt_zero (n k : Nat) : fieldAt (0#n) k = 0 := by
  simp [fieldAt]

/-- The R-format word of an instruction that carries only `rd` (R120, R121). -/
theorem encodeRegisterFormat_destination (rd : Reg) (funct : BitVec 6) :
    encodeRegisterFormat 0 0 rd 0 funct = fieldAt rd 11 ||| fieldAt funct 0 := by
  rw [encodeRegisterFormat_eq]
  simp

/-- The R-format word of an instruction that carries only `rs` and `rt` (R122, R123). -/
theorem encodeRegisterFormat_sources (rs rt : Reg) (funct : BitVec 6) :
    encodeRegisterFormat rs rt 0 0 funct = fieldAt rs 21 ||| fieldAt rt 16 ||| fieldAt funct 0 := by
  rw [encodeRegisterFormat_eq]
  simp

end Sys2Proof

namespace Sys2Proof.Machine

variable {i : Instr} {s : State} {pc : Nat} {rd rs rt : Reg} {v : Word}

/-! ## Any instruction of one result -/

/-- Only `syscall` asks the host. -/
theorem not_waitsForever_of_ne_syscall (hi : i ≠ .syscall) : ¬waitsForever i s := fun hw => hi hw.1

/-- An instruction whose one effect is to send `v` to the write port for `rd`, and that advances sequentially: it commits the
write, and faults instead when `rd` is register 0 (10_state.md R23). -/
theorem exec_register_result (hm : s.mode = .running pc) (hi : i ≠ .syscall) (he : effectsOf i s = s.writeReg rd v)
    (hc : controlOf i s pc = .seq) :
    (rd ≠ 0 → exec i s = .next { s with
      x := s.x.set rd.toNat v rd.isLt, steps := s.steps + 1, mode := afterSequential s pc }) ∧
    (rd = 0 → exec i s = .next { s with mode := .faulted .zeroRegisterWrite pc }) := by
  constructor
  · intro hne
    exact exec_sequential hm (not_waitsForever_of_ne_syscall hi) (he.trans (s.writeReg_of_ne hne v)) hc
  · rintro rfl
    exact exec_of_effects_error hm (he.trans (s.writeReg_zero v))

/-! ## `mult` -/

/-- In a running machine `mult` has no fault: it commits both halves of the product (R122). -/
theorem exec_mult (hm : s.mode = .running pc) (rs rt : Reg) :
    exec (.mult rs rt) s = .next { s with
      hi := (product64 (s.readReg rs) (s.readReg rt)).extractLsb' 32 32
      lo := (product64 (s.readReg rs) (s.readReg rt)).extractLsb' 0 32
      steps := s.steps + 1
      mode := afterSequential s pc } :=
  exec_sequential (i := .mult rs rt) hm (not_waitsForever_of_ne_syscall nofun) rfl rfl

/-- The halves of a 64-bit word, the high one signed and the low one unsigned, make up its signed value. -/
theorem toInt_eq_halves (p : BitVec 64) :
    (p.extractLsb' 32 32).toInt * 2 ^ 32 + ((p.extractLsb' 0 32).toNat : Int) = p.toInt := by
  simp only [BitVec.toInt_eq_toNat_cond, BitVec.extractLsb'_toNat, Nat.shiftRight_eq_div_pow]
  have := p.isLt
  omega

/-- The product of two signed words is at most `2^62` in magnitude (R122). -/
theorem natAbs_sint_mul_sint_le (v w : Word) : (sint v * sint w).natAbs ≤ 2 ^ 62 := by
  have magnitude : ∀ u : Word, (sint u).natAbs ≤ 2 ^ 31 := fun u => by
    obtain ⟨hlo, hhi⟩ := sint_range u
    omega
  calc (sint v * sint w).natAbs
    _ = (sint v).natAbs * (sint w).natAbs := Int.natAbs_mul ..
    _ ≤ 2 ^ 31 * 2 ^ 31 := Nat.mul_le_mul (magnitude v) (magnitude w)
    _ = 2 ^ 62 := by norm_num

/-- So the 64-bit product is the exact one. -/
theorem product64_toInt (v w : Word) : (product64 v w).toInt = sint v * sint w := by
  have hle := natAbs_sint_mul_sint_le v w
  exact BitVec.toInt_ofInt_eq_self (by decide) (by omega) (by omega)

/-! ## `div` -/

/-- A zero divisor or a zero dividend (R124). -/
theorem divide_zero {a b : Int} (h : b = 0 ∨ a = 0) : divide a b = .error .divideByZero := if_pos h

/-- The one quotient that is no signed word (R125). -/
theorem divide_overflow : divide (-2 ^ 31) (-1) = .error .divideOverflow := by decide

/-- Every other pair of operands has a quotient and a remainder (R123). -/
theorem divide_of_ne {a b : Int} (ha : a ≠ 0) (hb : b ≠ 0) (hov : ¬(a = -2 ^ 31 ∧ b = -1)) :
    divide a b = .ok (bv32 (tdiv a b), bv32 (trem a b)) := by
  rw [divide, if_neg (by simp [ha, hb]), if_neg hov]

/-- A `div` whose division faults enters that fault (R124, R125). -/
theorem exec_div_of_error {reason : FaultReason} (hm : s.mode = .running pc)
    (h : divide (sint (s.readReg rs)) (sint (s.readReg rt)) = .error reason) :
    exec (.div rs rt) s = .next { s with mode := .faulted reason pc } :=
  exec_of_effects_error hm (by rw [effectsOf, h]; rfl)

/-- A `div` whose division succeeds commits the quotient in `LO` and the remainder in `HI` (R123). -/
theorem exec_div_of_ok {q r : Word} (hm : s.mode = .running pc)
    (h : divide (sint (s.readReg rs)) (sint (s.readReg rt)) = .ok (q, r)) :
    exec (.div rs rt) s = .next { s with lo := q, hi := r, steps := s.steps + 1, mode := afterSequential s pc } := by
  have heffects : effectsOf (.div rs rt) s = .ok (s.setHiLo r q) := by
    rw [effectsOf, h]
    rfl
  exact exec_sequential (i := .div rs rt) hm (not_waitsForever_of_ne_syscall nofun) heffects rfl

/-! ## The obligations -/

/-- Settles O21: the halves make up the 64-bit product, which is exact. -/
theorem multProductIsExact : Obligations.MultProductIsExact := by
  intro s t rs rt h
  obtain ⟨pc, hm, -, -⟩ := exec_next h
  rw [exec_mult hm] at h
  cases h
  exact (toInt_eq_halves _).trans (product64_toInt _ _)

/-- Settles O18. -/
theorem mfhiCopiesHi : Obligations.MfhiCopiesHi := fun rd =>
  ⟨encodedAs_ignoredBits (encodeRegisterFormat_destination rd 0x10),
    fun _ _ hm => exec_register_result hm nofun rfl rfl⟩

/-- Settles O19. -/
theorem mfloCopiesLo : Obligations.MfloCopiesLo := fun rd =>
  ⟨encodedAs_ignoredBits (encodeRegisterFormat_destination rd 0x12),
    fun _ _ hm => exec_register_result hm nofun rfl rfl⟩

/-- Settles O20. -/
theorem multSplitsTheSignedProduct : Obligations.MultSplitsTheSignedProduct := fun rs rt =>
  ⟨encodedAs_ignoredBits (encodeRegisterFormat_sources rs rt 0x18), fun _ _ hm => exec_mult hm rs rt⟩

/-- Settles O22: with both operands non-zero, only the pair of R125 faults. -/
theorem divWritesQuotientAndRemainder : Obligations.DivWritesQuotientAndRemainder := by
  refine fun rs rt => ⟨encodedAs_ignoredBits (encodeRegisterFormat_sources rs rt 0x1A), ?_⟩
  rintro s pc a b hm rfl rfl ha hb
  exact ⟨fun hov => exec_div_of_ok hm (divide_of_ne ha hb hov),
    fun ⟨hmin, hneg⟩ => exec_div_of_error hm (by rw [hmin, hneg, divide_overflow])⟩

/-- Settles O23: a zero register is a zero operand. -/
theorem divByOrOfZeroFaults : Obligations.DivByOrOfZeroFaults := by
  intro rs rt s pc hm hzero
  have hoperand : sint (s.readReg rt) = 0 ∨ sint (s.readReg rs) = 0 :=
    hzero.imp (fun h => by rw [h]; rfl) (fun h => by rw [h]; rfl)
  exact exec_div_of_error hm (divide_zero hoperand)

end Sys2Proof.Machine
end

section
/-! SUPPORT. The arithmetic, logic and compare instructions: the words of the five of three registers and of `addiu`, and the one
result each sends to the write port (42_alu.md R130 to R135). -/

namespace Sys2Proof

variable {i : Instr} {rd rs rt : Reg}

/-- An R-format word that carries all three registers stands for its instruction whatever its ignored bits hold (R130 to R134). -/
theorem encodedAs_threeRegisters {funct : BitVec 6} (h : encode i = encodeRegisterFormat rs rt rd 0 funct) :
    EncodedAs i (fieldAt rs 21 ||| fieldAt rt 16 ||| fieldAt rd 11 ||| fieldAt funct 0) (ignoredBits i) :=
  encodedAs_ignoredBits (h.trans (encodeRegisterFormat_eq rs rt rd funct))

/-- An I-format word stands for its instruction (R135). -/
theorem encodedAs_immediate {opcode : BitVec 6} {imm : Imm16} (h : encode i = encodeImmediateFormat opcode rs rt imm) :
    EncodedAs i (fieldAt opcode 26 ||| fieldAt rs 21 ||| fieldAt rt 16 ||| fieldAt imm 0) (ignoredBits i) :=
  encodedAs_ignoredBits (h.trans (encodeImmediateFormat_eq rs rt opcode imm))

end Sys2Proof

namespace Sys2Proof.Machine

/-! ## The results that the rules write in other words -/

/-- The result of `slt`, its two words written as numerals (R134). -/
theorem setLessThan_eq (a b : Word) : setLessThan a b = if sint a < sint b then 1 else 0 := rfl

/-- `slt` sends the outcome of the signed comparison to the write port (R134). -/
theorem effectsOf_slt (s : State) (rd rs rt : Reg) :
    effectsOf (.slt rd rs rt) s = s.writeReg rd (if sint (s.readReg rs) < sint (s.readReg rt) then 1 else 0) := by
  rw [effectsOf, setLessThan_eq]

/-- `addiu` sends the sum with the signed immediate to the write port (R135). -/
theorem effectsOf_addiu (s : State) (rt rs : Reg) (imm : Imm16) :
    effectsOf (.addiu rt rs imm) s = s.writeReg rt (bv32 (sint (s.readReg rs) + imm.toInt)) := by
  rw [effectsOf, sext16]

/-! ## The obligations -/

/-- Settles O25. -/
theorem adduAddsWithWraparound : Obligations.AdduAddsWithWraparound := fun _ _ _ =>
  ⟨encodedAs_threeRegisters (funct := 0x21) rfl, fun _ _ hm => exec_register_result hm nofun rfl rfl⟩

/-- Settles O26. -/
theorem subuSubtractsWithWraparound : Obligations.SubuSubtractsWithWraparound := fun _ _ _ =>
  ⟨encodedAs_threeRegisters (funct := 0x23) rfl, fun _ _ hm => exec_register_result hm nofun rfl rfl⟩

/-- Settles O27. -/
theorem andIsBitwise : Obligations.AndIsBitwise := fun _ _ _ =>
  ⟨encodedAs_threeRegisters (funct := 0x24) rfl, fun _ _ hm => exec_register_result hm nofun rfl rfl⟩

/-- Settles O28. -/
theorem orIsBitwise : Obligations.OrIsBitwise := fun _ _ _ =>
  ⟨encodedAs_threeRegisters (funct := 0x25) rfl, fun _ _ hm => exec_register_result hm nofun rfl rfl⟩

/-- Settles O29: the comparison of the signed values is the result. -/
theorem sltComparesSigned : Obligations.SltComparesSigned := fun rd rs rt =>
  ⟨encodedAs_threeRegisters (funct := 0x2A) rfl,
    fun s _ hm => exec_register_result hm nofun (effectsOf_slt s rd rs rt) rfl⟩

/-- Settles O30: the immediate is read signed, and the word has no ignored bits. -/
theorem addiuAddsSignExtendedImmediate : Obligations.AddiuAddsSignExtendedImmediate := fun rt rs imm =>
  ⟨encodedAs_immediate (opcode := 9) rfl,
    fun s _ hm => exec_register_result hm nofun (effectsOf_addiu s rt rs imm) rfl⟩

end Sys2Proof.Machine
end

section
/-! SUPPORT. The control transfers: what a jump and the two branches do in a running machine, by whether the
target is in the program (43_control.md R140 to R142, 10_state.md R43 to R45). -/

namespace Sys2Proof.Machine

variable {i : Instr} {s : State} {pc : Nat} {ctl : Ctl} {rs rt : Reg}

theorem inRange_eq_false_iff {t : Int} {n : Nat} : inRange t n = false ↔ t < 0 ∨ n ≤ t := by
  rw [← Bool.not_eq_true, inRange_iff]
  omega

/-! ## The control choices -/

theorem controlOf_beq_of_eq (h : s.readReg rs = s.readReg rt) (imm : Imm16) :
    controlOf (.beq rs rt imm) s pc = .branchTaken (pc + imm.toInt) :=
  if_pos (decide_eq_true h)

theorem controlOf_beq_of_ne (h : s.readReg rs ≠ s.readReg rt) (imm : Imm16) :
    controlOf (.beq rs rt imm) s pc = .branchUntaken (pc + imm.toInt) :=
  if_neg (by simpa [equalWords] using h)

theorem controlOf_bne_of_ne (h : s.readReg rs ≠ s.readReg rt) (imm : Imm16) :
    controlOf (.bne rs rt imm) s pc = .branchTaken (pc + imm.toInt) :=
  if_pos (by simpa [equalWords] using h)

theorem controlOf_bne_of_eq (h : s.readReg rs = s.readReg rt) (imm : Imm16) :
    controlOf (.bne rs rt imm) s pc = .branchUntaken (pc + imm.toInt) :=
  if_neg (by simpa [equalWords] using h)

/-! ## The transfers in a running machine -/

/-- An instruction that writes nothing: its control choice alone decides the end of its step (10_state.md R38). -/
theorem exec_control (hm : s.mode = .running pc) (hi : i ≠ .syscall) (he : effectsOf i s = .ok s)
    (hc : controlOf i s pc = ctl) : exec i s = s.complete pc (.ok s) ctl := by
  rw [exec_of_running hm (not_waitsForever_of_ne_syscall hi), he, hc]

/-- A branch to the index `t`, whatever its condition: taken, it needs `t` in the program; not taken, it advances sequentially
unless `t` is checked and outside (10_state.md R44, R45). -/
theorem exec_branch {taken untaken : Prop} {t : Int} (hm : s.mode = .running pc) (hi : i ≠ .syscall)
    (he : effectsOf i s = .ok s) (htaken : taken → controlOf i s pc = .branchTaken t)
    (huntaken : untaken → controlOf i s pc = .branchUntaken t) :
    (taken → 0 ≤ t → t < s.imem.length → exec i s = .next { s with
      steps := s.steps + 1, mode := afterTarget s t.toNat }) ∧
    (taken → t < 0 ∨ s.imem.length ≤ t → exec i s = .next { s with mode := .faulted .invalidBranchTarget pc }) ∧
    (untaken → s.config.checkUntakenBranchTarget = false ∨ (0 ≤ t ∧ t < s.imem.length) →
      exec i s = .next { s with steps := s.steps + 1, mode := afterSequential s pc }) ∧
    (untaken → s.config.checkUntakenBranchTarget = true → t < 0 ∨ s.imem.length ≤ t →
      exec i s = .next { s with mode := .faulted .invalidBranchTarget pc }) := by
  refine ⟨fun h hlo hhi => ?_, fun h hout => ?_, fun h hok => ?_, fun h hcheck hout => ?_⟩
  · rw [exec_control hm hi he (htaken h)]
    exact s.complete_taken s pc (inRange_iff.mpr ⟨hlo, hhi⟩)
  · rw [exec_control hm hi he (htaken h)]
    exact s.complete_taken_fault s pc (inRange_eq_false_iff.mpr hout)
  · rw [exec_control hm hi he (huntaken h), s.complete_untaken s pc (hok.symm.imp_left inRange_iff.mpr)]
    exact s.complete_seq s pc
  · rw [exec_control hm hi he (huntaken h)]
    exact s.complete_untaken_fault s pc (inRange_eq_false_iff.mpr hout) hcheck

/-! ## The obligations -/

/-- Settles O31: the unsigned target is in the program, or the jump faults. -/
theorem jumpGoesToTheAbsoluteIndex : Obligations.JumpGoesToTheAbsoluteIndex := by
  refine fun target => ⟨encodedAs_ignoredBits (encodeJumpFormat_eq target), fun s pc hm => ?_⟩
  rw [exec_control (i := .j target) hm nofun rfl rfl]
  constructor
  · intro hlt
    exact s.complete_jump s pc (inRange_iff.mpr ⟨Int.natCast_nonneg _, Int.ofNat_lt.mpr hlt⟩)
  · intro hle
    exact s.complete_jump_fault s pc (inRange_eq_false_iff.mpr (.inr (Int.ofNat_le.mpr hle)))

/-- Settles O32: the branch is taken exactly when the registers are equal. -/
theorem beqBranchesWhenEqual : Obligations.BeqBranchesWhenEqual := by
  refine fun rs rt imm => ⟨encodedAs_immediate (opcode := 4) rfl, ?_⟩
  rintro s pc t hm rfl
  exact exec_branch hm nofun rfl (controlOf_beq_of_eq · imm) (controlOf_beq_of_ne · imm)

/-- Settles O33: the branch is taken exactly when the registers differ. -/
theorem bneBranchesWhenNotEqual : Obligations.BneBranchesWhenNotEqual := by
  refine fun rs rt imm => ⟨encodedAs_immediate (opcode := 5) rfl, ?_⟩
  rintro s pc t hm rfl
  exact exec_branch hm nofun rfl (controlOf_bne_of_ne · imm) (controlOf_bne_of_eq · imm)

end Sys2Proof.Machine
end

section
/-! SUPPORT. `lw` and `sw` in a running machine, by where the effective index of the operands lies (44_loadstore.md R150, R151,
20_memory.md R61 to R63, 60_exceptions.md R166). -/

namespace Sys2Proof.Machine

variable {s : State} {pc : Nat} {rt rs : Reg} {imm : Imm16}

/-- The effective index written out (20_memory.md R61). -/
theorem State.effectiveIndex_eq (s : State) (rs : Reg) (imm : Imm16) :
    s.effectiveIndex rs imm = imm.toInt + sint (s.readReg rs) - s.imem.length := rfl

theorem effectsOf_sw_out_of_range (h : inRange (s.effectiveIndex rs imm) s.dataCount = false) :
    effectsOf (.sw rt rs imm) s = .error .invalidDataAddress := by
  simp [effectsOf, State.storeWord, h]

/-! ## The obligations -/

/-- Settles O34: in range, a load is an instruction of one result; out of range, it faults before the write port is asked. -/
theorem lwLoadsTheWordAtTheEffectiveIndex : Obligations.LwLoadsTheWordAtTheEffectiveIndex := by
  refine fun rt rs imm => ⟨encodedAs_immediate (opcode := 35) rfl, fun s pc ei hm hei => ?_⟩
  obtain rfl : ei = s.effectiveIndex rs imm := hei.trans (s.effectiveIndex_eq rs imm).symm
  have hresult (hlo : 0 ≤ s.effectiveIndex rs imm) (hhi : s.effectiveIndex rs imm < s.dmem.size) :=
    exec_register_result (i := .lw rt rs imm) hm nofun (effectsOf_lw_of_inRange (inRange_iff.mpr ⟨hlo, hhi⟩)) rfl
  refine ⟨fun hlo hhi => (hresult hlo hhi).1, fun hlo hhi => (hresult hlo hhi).2, fun hout => ?_⟩
  exact exec_of_effects_error hm (effectsOf_lw_out_of_range (inRange_eq_false_iff.mpr hout))

/-- Settles O35: in range, a store commits the written memory, in which one word is new; register 0 is a source like any other. -/
theorem swStoresTheWordAtTheEffectiveIndex : Obligations.SwStoresTheWordAtTheEffectiveIndex := by
  refine fun rt rs imm => ⟨encodedAs_immediate (opcode := 43) rfl, fun s pc ei hm hei => ?_⟩
  obtain rfl : ei = s.effectiveIndex rs imm := hei.trans (s.effectiveIndex_eq rs imm).symm
  refine ⟨fun hlo hhi => ⟨?_, fun hwf => Memory.read_write_same hwf _ _,
    fun k hk => Memory.read_write_other s.dmem _ hk.symm⟩, fun hout => ?_⟩
  · have heffects := effectsOf_sw_ok_iff (rt := rt).mpr ⟨inRange_iff.mpr ⟨hlo, hhi⟩, rfl⟩
    exact exec_sequential (i := .sw rt rs imm) hm (not_waitsForever_of_ne_syscall nofun) heffects rfl
  · exact exec_of_effects_error hm (effectsOf_sw_out_of_range (inRange_eq_false_iff.mpr hout))

end Sys2Proof.Machine
end

section
/-! SUPPORT. An instruction that ends in a fault (60_exceptions.md R160, R161): `exec_next` for a faulted next state, where a
commit is ruled out, since no committed step leaves the engine faulted. -/

namespace Sys2Proof.Machine

variable {i : Instr} {s t : State}

/-- A faulting instruction, from what `exec_next` says of it. -/
theorem exec_next_faulted (h : exec i s = .next t) (ht : t.mode.isFaulted = true) :
    ∃ pc reason, s.mode = .running pc ∧ FaultsAt i s pc reason ∧ t = s.enterFaulted reason pc := by
  obtain ⟨pc, hm, -, ⟨reason, hf, rfl⟩ | ⟨s', m, -, -, hc, rfl⟩⟩ := exec_next h
  · exact ⟨pc, reason, hm, hf, rfl⟩
  · have hcommitted : m.isFaulted = false := hc.not_faulted
    simp [hcommitted] at ht

/-- Settles O39: a step is the execution of the fetched instruction, whose fault is a fault entry at its pc. -/
theorem faultingStepCommitsNothing : Obligations.FaultingStepCommitsNothing := by
  intro s t h ht
  obtain ⟨_, i, -, -, he⟩ := step_next_cases h
  obtain ⟨pc, reason, hm, -, rfl⟩ := exec_next_faulted he ht
  exact ⟨pc, reason, hm, rfl⟩

/-- Settles O40: the reason and the pc recorded are those of the instruction's own fault. -/
theorem faultReasonsPerInstruction : Obligations.FaultReasonsPerInstruction := by
  intro i s t reason location h ht
  obtain ⟨pc, reason', hm, hf, rfl⟩ := exec_next_faulted h (by rw [ht]; rfl)
  obtain ⟨rfl, rfl⟩ := Mode.faulted.inj ht
  obtain ⟨hdecode, hinput⟩ := not_loader_reason hf.mem
  exact ⟨hf.mem, hdecode, hinput, hm⟩

end Sys2Proof.Machine
end

section
/-! SUPPORT. What a load answers, as a state: the loaded state and the decode-fault state both meet the invariant, and a program
of no instructions is halted there (70_reset_and_hazards.md R180 to R182; 30_encoding.md R94). -/

namespace Sys2Proof.Machine

variable {l : Launch} {imem : List Instr} {k : Nat} {e : DecodeError}

/-! ## The program of no instructions -/

/-- A launch of no instructions loads, whatever its data (R182). -/
theorem load_of_no_instructions (hwf : l.wellFormed = true) (hprogram : l.program = []) :
    load l = .next (loadedState l.config [] (Memory.ofWords l.data) l.input) :=
  load_of_decodeProgram hwf (by rw [hprogram]; rfl)

/-- The reset state is the load of the empty launch (log entry 3). -/
theorem load_empty_launch : load { program := [], data := [] } = .next State.reset := rfl

/-- Settles O3: with no instruction the loaded state is halted (92_eei_decisions.md D11), and a halted machine takes no step. -/
theorem emptyProgramHaltsAtLoad : Obligations.EmptyProgramHaltsAtLoad :=
  ⟨fun _ hwf hprogram => ⟨_, load_of_no_instructions hwf hprogram, rfl, rfl, ((terminalStatesTakeNoStep _).1 rfl).1, rfl⟩,
    load_empty_launch⟩

/-! ## The invariant, established -/

/-- The reset state of a program halts with no instruction, and else starts at index 0 with every step left (R181). -/
theorem loadedState_engineOk (config : Config) (imem : List Instr) (dmem : Memory) (input : List HostAnswer) :
    (loadedState config imem dmem input).engineOk := by
  cases imem with
  | nil => exact Nat.le_refl 0
  | cons i rest => exact ⟨Nat.succ_pos _, Nat.succ_pos _⟩

/-- A program that decodes has the launch's sizes, so its loaded state is within the launch's bounds. -/
theorem loadedState_inv (hwf : l.wellFormed = true) (hd : decodeProgram l.program = .ok imem) :
    (loadedState l.config imem (Memory.ofWords l.data) l.input).Inv where
  zero_stored := loadedState_zero_stored _ _ _ _
  dmem_wf := Memory.ofWords_wf l.data
  engine := loadedState_engineOk _ _ _ _
  sizes := by
    obtain ⟨hlen, -⟩ := decodeProgramFrom_ok hd
    change launchSizesOk imem.length l.data.length = true
    rw [hlen]
    exact hwf
  out_signed := fun _ hv => absurd hv List.not_mem_nil

/-- The position of an illegal word counts from 1 (30_encoding.md R94). -/
theorem one_le_of_decodeProgram_error {program : List Word} (h : decodeProgram program = .error (k, e)) : 1 ≤ k := by
  obtain ⟨j, -, rfl, -⟩ := decodeProgramFrom_error h
  exact Nat.le_add_right 1 j

/-- A machine that faulted at load holds an empty program and no data, and no step is counted (log entry 12). -/
theorem decodeFaultState_inv (l : Launch) (hk : 1 ≤ k) : (decodeFaultState l k).Inv where
  zero_stored := rfl
  dmem_wf := rfl
  engine := .inl ⟨rfl, hk, rfl⟩
  sizes := rfl
  out_signed := fun _ hv => absurd hv List.not_mem_nil

theorem load_inv {t : State} (h : load l = .next t) : t.Inv := by
  obtain ⟨hwf, ⟨k, e, hd, rfl⟩ | ⟨imem, hd, rfl⟩⟩ := load_cases h
  · exact decodeFaultState_inv l (one_le_of_decodeProgram_error hd)
  · exact loadedState_inv hwf hd

/-- Settles O53: a load answers the loaded state or the decode-fault state, and State.reset is the load of the empty launch. -/
theorem invariantHoldsAfterEveryLoad : Obligations.InvariantHoldsAfterEveryLoad :=
  ⟨load_inv load_empty_launch, fun _ _ => load_inv⟩

end Sys2Proof.Machine
end
